-- ==== Sys2Proof/Word.lean ====
section
/-! DEFINITION. The values of the BasicML core. There are no binary fields and no bytes anywhere in this machine
(00_scope.md R7; 20_memory.md R36), so no bit vector occurs. A word, the accumulator and a channel value are signed
integers, Lean's `Int` (R6, R17, R26): the range of a STORED word is the predicate `Config.InWord`, not a type. An address
and an operand are natural numbers (R15 "Operand", R19), except at the host port, which may be given any integer (R31). -/

namespace Sys2Proof

/-- `dig(v, hi, lo)`, the decimal digit slice of a non-negative `v` (00_scope.md R7). -/
def dig (v hi lo : Nat) : Nat := v / 10 ^ lo % 10 ^ (hi - lo + 1)

end Sys2Proof
end

