-- ==== Sys2Proof/Config.lean ====
section
/-! DEFINITION. The parameters of an implementation (00_scope.md R4, R5; 93_implementation_defined.md §2) and the
constants derived from `W`. A `Config` is a field of the state that nothing writes (assumption log 1), so that a claim
about every state is a claim about every implementation. -/

namespace Sys2Proof

/-- The rounding of DIVIDE: `DIV_MODE` of 00_scope.md R4, used by 43_arithmetic.md R94. -/
inductive DivMode where
  /-- `TRUNC`: toward zero. -/
  | trunc
  /-- `FLOOR`: toward negative infinity. -/
  | floor
  deriving DecidableEq, Repr

/-- What the host load does with a malformed entry: `LOAD_POLICY` of 00_scope.md R4, used by 20_memory.md R47. -/
inductive LoadPolicy where
  /-- `ZERO_AND_CONTINUE`: write the zero word there and go on. -/
  | zeroAndContinue
  /-- `ABORT`: stop there; the words before it stay written. -/
  | abort
  deriving DecidableEq, Repr

/-- The five free parameters of 00_scope.md R5. -/
structure Config where
  /-- `W`, the decimal digits of a word. -/
  wordDigits : Nat
  /-- `N`, the number of memory words. -/
  memWords : Nat
  /-- `MAX_STEPS`, the step budget set by boot. -/
  maxSteps : Nat
  /-- `DIV_MODE`. -/
  divMode : DivMode
  /-- `LOAD_POLICY`. -/
  loadPolicy : LoadPolicy
  deriving DecidableEq, Repr

namespace Config

/-- The constraints of 00_scope.md R4 (92_eei_decisions.md D2, D3, D4): `W >= 3`, `N >= 1`, `MAX_STEPS >= 1`. -/
abbrev Valid (c : Config) : Prop := 3 ≤ c.wordDigits ∧ 1 ≤ c.memWords ∧ 1 ≤ c.maxSteps

/-- `A = W - 2`, the operand digits (00_scope.md R4). -/
def operandDigits (c : Config) : Nat := c.wordDigits - 2

/-- `OPBASE = 10^A`, the operand radix (00_scope.md R4). -/
def opBase (c : Config) : Nat := 10 ^ c.operandDigits

/-- `T = 10^(W-1)`, the smallest valid instruction word (30_encoding.md R60; 90_conflicts.md C1). -/
def minInstr (c : Config) : Nat := 10 ^ (c.wordDigits - 1)

/-- `WMAX = 10^W - 1` (00_scope.md R4). -/
def wmax (c : Config) : Nat := 10 ^ c.wordDigits - 1

/-- The range of a stored word, `-WMAX <= v <= WMAX` (00_scope.md R8). -/
abbrev InWord (c : Config) (v : Int) : Prop := -(c.wmax : Int) ≤ v ∧ v ≤ (c.wmax : Int)

/-- The reference configuration `W = 4`, `N = 100`, with the spec's default modes (00_scope.md R4, R16;
92_eei_decisions.md D1). DESIGN CHOICE (unsafe, log 1): the spec gives `MAX_STEPS` no reference value; 1000 is the model's. -/
def reference : Config :=
  { wordDigits := 4, memWords := 100, maxSteps := 1000, divMode := .trunc, loadPolicy := .zeroAndContinue }

end Config
end Sys2Proof
end

