-- ==== Sys2Proof/Syntax.lean ====
section
/-! DEFINITION. The instructions: one constructor per row of spec/opcode_table.json, in the table's order
(30_encoding.md R63). Every instruction has exactly one operand (R52), an address or a branch target (R53). -/

namespace Sys2Proof

/-- The twelve instructions of 30_encoding.md R63, each with its operand `a` (`w mod OPBASE`, R61). -/
inductive Instr where
  /-- READ, operator 10 (41_io.md R85). -/
  | read (a : Nat)
  /-- WRITE, operator 11 (41_io.md R86). -/
  | write (a : Nat)
  /-- LOAD, operator 20 (42_load_store.md R87). -/
  | load (a : Nat)
  /-- STORE, operator 21 (42_load_store.md R88). -/
  | store (a : Nat)
  /-- ADD, operator 30 (43_arithmetic.md R89). -/
  | add (a : Nat)
  /-- SUBTRACT, operator 31 (43_arithmetic.md R90). -/
  | subtract (a : Nat)
  /-- DIVIDE, operator 32 (43_arithmetic.md R91). -/
  | divide (a : Nat)
  /-- MULTIPLY, operator 33 (43_arithmetic.md R92). -/
  | multiply (a : Nat)
  /-- BRANCH, operator 40 (44_control.md R96). -/
  | branch (a : Nat)
  /-- BRANCHNEG, operator 41 (44_control.md R97). -/
  | branchneg (a : Nat)
  /-- BRANCHZERO, operator 42 (44_control.md R98). -/
  | branchzero (a : Nat)
  /-- HALT, operator 43 (44_control.md R99); the operand is kept by the encoding and ignored by the meaning. -/
  | halt (a : Nat)
  deriving DecidableEq, Repr

/-- The operand field of an instruction (30_encoding.md R52: exactly one each). -/
def Instr.operand : Instr → Nat
  | .read a => a
  | .write a => a
  | .load a => a
  | .store a => a
  | .add a => a
  | .subtract a => a
  | .divide a => a
  | .multiply a => a
  | .branch a => a
  | .branchneg a => a
  | .branchzero a => a
  | .halt a => a

end Sys2Proof
end

