-- ==== Sys2Proof/WellFormed.lean ====
section
/-! DEFINITION. When an instruction has an encoding: its operand fits `A` digits (30_encoding.md R53, R69). -/

namespace Sys2Proof

/-- `0 <= a < OPBASE` (30_encoding.md R69); every such operand is legal, for every operator (R66). -/
abbrev Instr.WellFormed (c : Config) (i : Instr) : Prop := i.operand < c.opBase

end Sys2Proof
end

