-- ==== Sys2Proof/Decode.lean ====
section
/-! DEFINITION. The Instruction Decoder (30_encoding.md R50 to R67), total over the integers and rejecting by name, and
after it the encoder (R69), written from the same operator table (R63). -/

namespace Sys2Proof

/-- The operator field of a word, `w div OPBASE` (30_encoding.md R51, R61). -/
def operatorField (c : Config) (w : Nat) : Nat := w / c.opBase

/-- The operand field of a word, `w mod OPBASE` (30_encoding.md R51, R53, R61). -/
def operandField (c : Config) (w : Nat) : Nat := w % c.opBase

/-- The operator table of 30_encoding.md R63, read from operator to instruction. The set is closed (R64, R65, R66). -/
def instrOf (op : Nat) (a : Nat) : Option Instr :=
  match op with
  | 10 => some (.read a)
  | 11 => some (.write a)
  | 20 => some (.load a)
  | 21 => some (.store a)
  | 30 => some (.add a)
  | 31 => some (.subtract a)
  | 32 => some (.divide a)
  | 33 => some (.multiply a)
  | 40 => some (.branch a)
  | 41 => some (.branchneg a)
  | 42 => some (.branchzero a)
  | 43 => some (.halt a)
  | _ => none

/-- Why a word is no instruction (30_encoding.md R67; 60_exceptions.md R101 causes 3, 4 and 5). -/
inductive DecodeError where
  /-- `w < 0` (R59). -/
  | negativeOperation
  /-- `0 <= w < T` (R60). -/
  | operationTooSmall
  /-- `T <= w` and the operator is none of the twelve (R64). -/
  | invalidOperator
  deriving DecidableEq, Repr

/-- Decode one word (30_encoding.md R67). DEDUCED (safe, log 13): a word above `WMAX`, which no memory holds, has an operator
above 99 and is rejected as any other undefined operator. -/
def decode (c : Config) (w : Int) : Except DecodeError Instr :=
  if w < 0 then .error .negativeOperation
  else if w < (c.minInstr : Int) then .error .operationTooSmall
  else
    match instrOf (operatorField c w.toNat) (operandField c w.toNat) with
    | some i => .ok i
    | none => .error .invalidOperator

/-- The host's question about a table row. DESIGN CHOICE (log 11): the machine has no bits, so the number the bits spell
is read as the word's integer value, at the reference configuration. -/
def decodeTableWord (nbits w : Nat) : Option Instr :=
  match decode Config.reference ((w % 2 ^ nbits : Nat) : Int) with
  | .ok i => some i
  | .error _ => none

/-- The operator table of 30_encoding.md R63, read from instruction to operator. -/
def Instr.operator : Instr → Nat
  | .read _ => 10
  | .write _ => 11
  | .load _ => 20
  | .store _ => 21
  | .add _ => 30
  | .subtract _ => 31
  | .divide _ => 32
  | .multiply _ => 33
  | .branch _ => 40
  | .branchneg _ => 41
  | .branchzero _ => 42
  | .halt _ => 43

/-- The word of a well-formed instruction, `op * OPBASE + aa` (30_encoding.md R69). -/
def encode (c : Config) (i : Instr) : Int := ((i.operator * c.opBase + i.operand : Nat) : Int)

/-- Encoding a listing line: an operand that does not fit `A` digits has no encoding, and the line is refused
(30_encoding.md R69). -/
def assemble (c : Config) (i : Instr) : Option Int :=
  if i.WellFormed c then some (encode c i) else none

end Sys2Proof
end

