-- ==== Sys2Proof/Machine/State.lean ====
section
/-! DEFINITION. The machine's state as plain data (10_state.md), the reasons a step can stop, and the state at power-on
(70_reset_and_hazards.md R126). -/

namespace Sys2Proof.Machine

/-- The engine state `RS` (10_state.md R20). -/
inductive RunState where
  /-- `READY`: after boot, before the first fetch. -/
  | ready
  /-- `RUNNING`: between the first step and the end; a paused core is still `RUNNING`. -/
  | running
  /-- `HALTED`: terminal, by the HALT instruction. -/
  | halted
  /-- `ABORTED`: terminal, by an abort. -/
  | aborted
  deriving DecidableEq, Repr

/-- The values of `CAUSE` (10_state.md R24; 60_exceptions.md R101). -/
inductive Cause where
  /-- Code 0, `NONE`: no abort since boot. -/
  | none
  /-- Code 1, `ADDRESS_ERROR_FETCH`. -/
  | addressErrorFetch
  /-- Code 2, `ADDRESS_ERROR_OPERAND`. -/
  | addressErrorOperand
  /-- Code 3, `NEGATIVE_OPERATION`. -/
  | negativeOperation
  /-- Code 4, `OPERATION_TOO_SMALL`. -/
  | operationTooSmall
  /-- Code 5, `INVALID_OPERATOR`. -/
  | invalidOperator
  /-- Code 6, `DIVIDE_BY_ZERO`. -/
  | divideByZero
  /-- Code 7, `RANGE_ERROR`. -/
  | rangeError
  /-- Code 8, `STEP_BUDGET_EXCEEDED`. -/
  | stepBudgetExceeded
  deriving DecidableEq, Repr

/-- Where the host's `run` command stands (60_exceptions.md R113, R116; 20_memory.md R48). DESIGN CHOICE (log 9): the spec
says when a run is active and where its loop looks at the stop request; the model names the loop's two waiting points. -/
inductive RunPhase where
  /-- No run is active. -/
  | idle
  /-- A run is active and its loop stands at the top, before the terminal and stop checks. -/
  | loopTop
  /-- A run is active and has passed those checks: it waits until the step is enabled. -/
  | committed
  deriving DecidableEq, Repr

/-- Memory as the list of its non-zero words, addresses rising (`Memory.wf`). The unit is the word, because this memory
has no bytes (20_memory.md R32, R36; log 3). An unlisted address reads as the power-on word 0
(70_reset_and_hazards.md R126). -/
abbrev Memory := List (Nat × Int)

/-- Every piece of state of 10_state.md R28, the two channels of R27, the active run of 20_memory.md R48 and the
parameters of 00_scope.md R5. `HALTED` is the view `State.halted`, not storage (R21). -/
structure State where
  /-- The implementation's parameters (00_scope.md R4); nothing writes them (log 1). -/
  cfg : Config
  /-- `ACC`, unbounded (10_state.md R17). -/
  acc : Int
  /-- `PC` (10_state.md R19). -/
  pc : Nat
  /-- `RS` (10_state.md R20). -/
  rs : RunState
  /-- `SR`, the remaining step budget (10_state.md R23). -/
  sr : Nat
  /-- `CAUSE` (10_state.md R24). -/
  cause : Cause
  /-- `INFO` (10_state.md R25). -/
  info : Int
  /-- `M` (10_state.md R26). -/
  mem : Memory
  /-- `stop_request` (10_state.md R28, 60_exceptions.md R116). -/
  stopRequest : Bool
  /-- The input channel: the values the host has supplied and no READ has taken, oldest first (R27, R117; log 4). -/
  input : List Int
  /-- The output channel: the values appended so far, oldest first (R27, R117; log 5). -/
  output : List Int
  /-- Whether, and where, a `run` command is active (R48, R113; log 9). -/
  runPhase : RunPhase
  deriving DecidableEq, Repr

/-- A step never faults: every error this machine knows is an abort the spec describes (60_exceptions.md R101), and
taking it is a next state. The type is therefore empty, and "no step faults" holds by its type. Safe. -/
inductive Fault where
  deriving DecidableEq, Repr

/-- Why the model gives no next state. -/
inductive Refusal where
  /-- An instruction that has no meaning yet. No arm of `exec` raises it. Safe. -/
  | notModelled (mnemonic : String)
  /-- Raised by a step, and by a host event that steps, at a configuration outside 00_scope.md R4's constraints
  (92_eei_decisions.md D2 to D4: "outside the model (refused)"). Safe (log 2). -/
  | configOutsideModel
  /-- Raised by a host event that breaks a duty of 60_exceptions.md R119: the memory port, `run` or `single_step` during
  an active run. R120: the model gives it no transition. Safe for the core's steps (log 10). -/
  | brokenHostDuty
  /-- Raised by asking the `run` loop to go on when no run is active. Safe (log 9). -/
  | noActiveRun
  deriving DecidableEq, Repr

/-- The machine at power-on with parameters `c` (70_reset_and_hazards.md R126; 10_state.md R28). DESIGN CHOICE (logs 4, 5
and 9): the channels are empty and no run is active. -/
def State.powerOn (c : Config) : State :=
  { cfg := c, acc := 0, pc := 0, rs := .ready, sr := c.maxSteps, cause := .none, info := 0, mem := [],
    stopRequest := false, input := [], output := [], runPhase := .idle }

/-- The machine right after reset, at the reference configuration (00_scope.md R16; log 1). -/
def State.reset : State := State.powerOn Config.reference

end Sys2Proof.Machine
end

