-- ==== Sys2Proof/Machine/Flags.lean ====
section
/-! DEFINITION. The one flag and the two branch conditions. No instruction writes a condition code; the conditions are
computed from `ACC` when a branch executes (10_state.md R22). -/

namespace Sys2Proof.Machine

/-- `HALTED`, the read-only view of `RS` (10_state.md R21). -/
def State.halted (s : State) : Bool := s.rs == .halted

/-- `RS` is `HALTED` or `ABORTED`: no step is enabled until the next boot (10_state.md R20, 60_exceptions.md R115). -/
def State.terminal (s : State) : Bool := s.rs == .halted || s.rs == .aborted

/-- The condition of BRANCHNEG, on the exact sign (44_control.md R97). -/
def State.accNegative (s : State) : Bool := decide (s.acc < 0)

/-- The condition of BRANCHZERO (44_control.md R98). -/
def State.accZero (s : State) : Bool := decide (s.acc = 0)

/-- The numeric code of an abort cause (60_exceptions.md R101). -/
def Cause.code : Cause → Nat
  | .none => 0
  | .addressErrorFetch => 1
  | .addressErrorOperand => 2
  | .negativeOperation => 3
  | .operationTooSmall => 4
  | .invalidOperator => 5
  | .divideByZero => 6
  | .rangeError => 7
  | .stepBudgetExceeded => 8

end Sys2Proof.Machine
end

