-- ==== Sys2Proof/Machine/Ops.lean ====
section
/-! DEFINITION. The named operations over memory, registers and channels; raising an abort (this machine's exception
entry) and boot (the only way back from one); the phases of a step that every instruction shares. -/

namespace Sys2Proof.Machine

/-! ### Memory -/

/-- The canonical form: addresses strictly rising, and no entry equal to what an unlisted address reads as. -/
abbrev Memory.wf (m : Memory) : Prop := m.Pairwise (fun p q => p.1 < q.1) ∧ ∀ p ∈ m, p.2 ≠ 0

/-- The word at an address; an unlisted one reads as the power-on word 0 (70_reset_and_hazards.md R126). -/
def Memory.read (m : Memory) (a : Nat) : Int :=
  match m with
  | [] => 0
  | p :: rest => if p.1 = a then p.2 else Memory.read rest a

/-- Replace exactly one word (20_memory.md R38 item 4), keeping the canonical form. -/
def Memory.write (m : Memory) (a : Nat) (v : Int) : Memory :=
  match m with
  | [] => if v = 0 then [] else [(a, v)]
  | p :: rest =>
    if p.1 < a then p :: Memory.write rest a v
    else if p.1 = a then (if v = 0 then rest else (a, v) :: rest)
    else if v = 0 then p :: rest
    else (a, v) :: p :: rest

/-! ### Registers -/

/-- `ACC <- v`, never range-checked (10_state.md R17). -/
def State.setAcc (s : State) (v : Int) : State := { s with acc := v }

/-- `PC <- target` (10_state.md R19). -/
def State.setPc (s : State) (a : Nat) : State := { s with pc := a }

/-- `M[a] <- v` with no check: the write that `memWrite` and the host port make after theirs. -/
def State.setWord (s : State) (a : Nat) (v : Int) : State := { s with mem := s.mem.write a v }

/-! ### Raising an abort, halting, and boot -/

/-- `raise Abort(cause, info)`: `RS`, `CAUSE` and `INFO`, and nothing else (00_scope.md R11; 60_exceptions.md R101, R105).
Control goes nowhere: there is no handler (R105). -/
def State.raiseAbort (s : State) (c : Cause) (i : Int) : State :=
  { s with rs := .aborted, cause := c, info := i }

/-- `signal Halt`: `RS <- HALTED` and nothing else (00_scope.md R12). -/
def State.signalHalt (s : State) : State := { s with rs := .halted }

/-- `Boot()`, the only return from `HALTED` and `ABORTED` (70_reset_and_hazards.md R125; 60_exceptions.md R106). Memory and
the channels are not touched. DESIGN CHOICE (log 10): an active run is not ended by a boot. -/
def State.boot (s : State) : State :=
  { s with acc := 0, pc := 0, rs := .ready, sr := s.cfg.maxSteps, cause := .none, info := 0, stopRequest := false }

/-! ### Checked memory access -/

/-- `MemRead(a, 1)` with its abort kind (00_scope.md R10). `.error` carries the state after the abort. -/
def memRead (kind : Cause) (a : Nat) (s : State) : Except State Int :=
  if a < s.cfg.memWords then .ok (s.mem.read a) else .error (s.raiseAbort kind a)

/-- `MemWrite(a, 1, v)` with its abort kind: the address check, then the range check, then the one write (00_scope.md R10;
92_eei_decisions.md D8). -/
def memWrite (kind : Cause) (a : Nat) (v : Int) (s : State) : Except State State :=
  if a < s.cfg.memWords then
    if s.cfg.InWord v then .ok (s.setWord a v) else .error (s.raiseAbort .rangeError v)
  else .error (s.raiseAbort kind a)

/-! ### Channels -/

/-- `InRead()`: take the oldest value the host has supplied (00_scope.md R13; 60_exceptions.md R117). `none`: no value is
ready, and the step that would take it is not enabled (41_io.md R85). -/
def inRead (s : State) : Option (Int × State) :=
  match s.input with
  | [] => none
  | v :: rest => some (v, { s with input := rest })

/-- `OutWrite(v)`: append to the output; never fails (00_scope.md R13; 60_exceptions.md R117). -/
def outWrite (v : Int) (s : State) : State := { s with output := s.output ++ [v] }

/-! ### The phases of a step -/

/-- Start: `READY` becomes `RUNNING` (40_cycle.md R73). -/
def State.start (s : State) : State := { s with rs := if s.rs = .ready then .running else s.rs }

/-- Fetch `M[PC]` (40_cycle.md R74). -/
def fetch (s : State) : Except State Int := memRead .addressErrorFetch s.pc s

/-- Advance, after the fetch and before decode and execute (40_cycle.md R75). -/
def State.advance (s : State) : State := s.setPc (s.pc + 1)

/-- Count: `SR <- SR - 1`, and the step-budget abort when that is 0 (40_cycle.md R79). DESIGN CHOICE (safe, log 15): at `SR = 0`,
which R30 item 3 rules out in a running core, the difference is 0. -/
def State.count (s : State) : State :=
  if s.sr - 1 = 0 then { s with sr := s.sr - 1 }.raiseAbort .stepBudgetExceeded 0 else { s with sr := s.sr - 1 }

/-- How a handler ends (40_cycle.md R77). -/
inductive Handled where
  /-- It completed. -/
  | completed (s : State)
  /-- It signalled `Halt`. -/
  | halted (s : State)
  /-- It raised an abort. -/
  | aborted (s : State)
  deriving DecidableEq, Repr

/-- Outcome: only a completed instruction is counted (40_cycle.md R78, R79). -/
def settle (h : Handled) : State :=
  match h with
  | .completed s => s.count
  | .halted s => s
  | .aborted s => s

/-- What every instruction shares: start, advance, its handler, outcome and count (40_cycle.md R73, R75, R77 to R79), from the
state in which `PC` is the instruction's address. -/
def runHandler (h : State → Handled) (s : State) : State := settle (h s.start.advance)

end Sys2Proof.Machine
end

