-- ==== Sys2Proof/Machine/Operands.lean ====
section
/-! DEFINITION. The one operand form: direct addressing, the operand being the address itself (30_encoding.md R53). A
handler reads one word through it, writes one word through it, or takes it as a branch target. -/

namespace Sys2Proof.Machine

/-- Read `M[a]`, or abort with `ADDRESS_ERROR_OPERAND` and `INFO = a` (60_exceptions.md R101). -/
def operandRead (a : Nat) (s : State) : Except State Int := memRead .addressErrorOperand a s

/-- Write `M[a]`, or abort with `ADDRESS_ERROR_OPERAND` or `RANGE_ERROR` (60_exceptions.md R101, R104 item 5). -/
def operandWrite (a : Nat) (v : Int) (s : State) : Except State State := memWrite .addressErrorOperand a v s

/-- A handler that reads its operand's word and goes on with it. -/
def withOperand (a : Nat) (k : Int → Handled) (s : State) : Handled :=
  match operandRead a s with
  | .error t => .aborted t
  | .ok m => k m

/-- A handler that writes one word to its operand's address and is then done. -/
def storeOperand (a : Nat) (v : Int) (s : State) : Handled :=
  match operandWrite a v s with
  | .error t => .aborted t
  | .ok t => .completed t

/-- A handler that branches to its operand if the condition holds. The target is not checked (44_control.md R100). -/
def branchIf (c : Bool) (a : Nat) (s : State) : Handled := .completed (if c then s.setPc a else s)

end Sys2Proof.Machine
end

