-- ==== Sys2Proof/Machine/Arithmetic.lean ====
section
/-! DEFINITION. ADD, SUBTRACT, DIVIDE and MULTIPLY (43_arithmetic.md), exact over the integers (R93), and the two roundings of
DIVIDE (R94). -/

namespace Sys2Proof.Machine

/-- The quotient rounded toward zero, `sign(a) * sign(b) * (|a| div |b|)` (00_scope.md R6). -/
def tdiv (a b : Int) : Int := a.sign * b.sign * ((a.natAbs / b.natAbs : Nat) : Int)

/-- The quotient rounded toward negative infinity (00_scope.md R6). -/
def fdiv (a b : Int) : Int := Int.fdiv a b

/-- The quotient of DIVIDE by `DIV_MODE` (43_arithmetic.md R94). -/
def quotient (d : DivMode) (a b : Int) : Int :=
  match d with
  | .trunc => tdiv a b
  | .floor => fdiv a b

/-- ADD (43_arithmetic.md R89). -/
def execAdd (a : Nat) (s : State) : Host.Outcome State Fault Refusal :=
  .next (runHandler (fun t => withOperand a (fun m => .completed (t.setAcc (t.acc + m))) t) s)

/-- SUBTRACT (43_arithmetic.md R90). -/
def execSubtract (a : Nat) (s : State) : Host.Outcome State Fault Refusal :=
  .next (runHandler (fun t => withOperand a (fun m => .completed (t.setAcc (t.acc - m))) t) s)

/-- DIVIDE (43_arithmetic.md R91): a zero divisor aborts before any write (R95). -/
def execDivide (a : Nat) (s : State) : Host.Outcome State Fault Refusal :=
  .next (runHandler (fun t => withOperand a (fun m =>
    if m = 0 then .aborted (t.raiseAbort .divideByZero a)
    else .completed (t.setAcc (quotient t.cfg.divMode t.acc m))) t) s)

/-- MULTIPLY (43_arithmetic.md R92). -/
def execMultiply (a : Nat) (s : State) : Host.Outcome State Fault Refusal :=
  .next (runHandler (fun t => withOperand a (fun m => .completed (t.setAcc (t.acc * m))) t) s)

end Sys2Proof.Machine
end

