-- ==== Sys2Proof/Machine/Control.lean ====
section
/-! DEFINITION. BRANCH, BRANCHNEG, BRANCHZERO and HALT (44_control.md). -/

namespace Sys2Proof.Machine

/-- BRANCH (44_control.md R96). -/
def execBranch (a : Nat) (s : State) : Host.Outcome State Fault Refusal :=
  .next (runHandler (branchIf true a) s)

/-- BRANCHNEG (44_control.md R97). -/
def execBranchneg (a : Nat) (s : State) : Host.Outcome State Fault Refusal :=
  .next (runHandler (fun t => branchIf t.accNegative a t) s)

/-- BRANCHZERO (44_control.md R98). -/
def execBranchzero (a : Nat) (s : State) : Host.Outcome State Fault Refusal :=
  .next (runHandler (fun t => branchIf t.accZero a t) s)

/-- HALT (44_control.md R99): the operand is ignored, and the step is not counted (40_cycle.md R78). -/
def execHalt (_a : Nat) (s : State) : Host.Outcome State Fault Refusal :=
  .next (runHandler (fun t => .halted t.signalHalt) s)

end Sys2Proof.Machine
end

