-- ==== Sys2Proof/Machine/InputOutput.lean ====
section
/-! DEFINITION. READ and WRITE (41_io.md). -/

namespace Sys2Proof.Machine

/-- READ (41_io.md R85). With no input ready the step is not enabled and nothing changes (log 6). Otherwise the value is
taken first, so an abort has consumed it (92_eei_decisions.md D9). -/
def execRead (a : Nat) (s : State) : Host.Outcome State Fault Refusal :=
  match inRead s with
  | none => .next s
  | some (v, t) => .next (runHandler (storeOperand a v) t)

/-- WRITE (41_io.md R86). -/
def execWrite (a : Nat) (s : State) : Host.Outcome State Fault Refusal :=
  .next (runHandler (fun t => withOperand a (fun m => .completed (outWrite m t)) t) s)

end Sys2Proof.Machine
end

