-- ==== Sys2Proof/Machine/LoadStore.lean ====
section
/-! DEFINITION. LOAD and STORE (42_load_store.md). -/

namespace Sys2Proof.Machine

/-- LOAD (42_load_store.md R87). -/
def execLoad (a : Nat) (s : State) : Host.Outcome State Fault Refusal :=
  .next (runHandler (fun t => withOperand a (fun m => .completed (t.setAcc m)) t) s)

/-- STORE, where the accumulator's deferred range check is made (42_load_store.md R88). -/
def execStore (a : Nat) (s : State) : Host.Outcome State Fault Refusal :=
  .next (runHandler (fun t => storeOperand a t.acc t) s)

end Sys2Proof.Machine
end

