-- ==== Sys2Proof/Machine/Cycle.lean ====
section
/-! DEFINITION. The fetch-decode-execute step (40_cycle.md R71 to R80) and placing a word where the next fetch reads it. -/

namespace Sys2Proof.Machine

/-- The abort cause of a decode error (60_exceptions.md R101, causes 3 to 5). -/
def decodeCause (e : DecodeError) : Cause :=
  match e with
  | .negativeOperation => .negativeOperation
  | .operationTooSmall => .operationTooSmall
  | .invalidOperator => .invalidOperator

/-- The instruction the next step would run, if the fetch and the decode succeed. -/
def nextInstr (s : State) : Option Instr :=
  match fetch s with
  | .error _ => none
  | .ok w =>
    match decode s.cfg w with
    | .error _ => none
    | .ok i => some i

/-- The core waits at a READ: the word at `PC` decodes to READ and no input value is ready (41_io.md R85; 40_cycle.md R71). -/
def State.waiting (s : State) : Bool :=
  match nextInstr s with
  | some (.read _) => s.input.isEmpty
  | _ => false

/-- A step is enabled as far as the core and its input go (40_cycle.md R71): `RS` is `READY` or `RUNNING`, and a READ at
`PC` has its value. -/
def State.stepEnabled (s : State) : Bool := !s.terminal && !s.waiting

/-- One step (40_cycle.md R80): the fetch (R74), and a decode abort after the advance (R75, R76), or the instruction. In
`HALTED` or `ABORTED`, and while a READ waits, no step is enabled and the state stays as it is (R71, 60_exceptions.md R115,
R122; logs 6 and 7). A configuration outside the model is refused (log 2). -/
def cycle (s : State) : Host.Outcome State Fault Refusal :=
  if ¬ s.cfg.Valid then .refused .configOutsideModel
  else if s.terminal then .next s
  else
    match fetch s with
    | .error t => .next t
    | .ok w =>
      match decode s.cfg w with
      | .error e => .next (s.start.advance.raiseAbort (decodeCause e) w)
      | .ok i => exec i s

/-- The instruction word that `nbits` and `w` spell, where the next step fetches it. DESIGN CHOICE (log 11): if the core cannot
fetch (`HALTED`, `ABORTED`, or `PC` outside memory) it is booted first; the number is the word's value and is stored if a
memory word can hold it; a READ with no input ready is given the input 0. -/
def State.placeWord (s : State) (nbits w : Nat) : State :=
  let b := if s.terminal || decide (s.cfg.memWords ≤ s.pc) then s.boot else s
  let v : Int := ((w % 2 ^ nbits : Nat) : Int)
  let t := if b.cfg.InWord v then b.setWord b.pc v else b
  if t.waiting then { t with input := [0] } else t

end Sys2Proof.Machine
end

