-- ==== Sys2Proof/Machine/Step.lean ====
section
/-! DEFINITION. The machine's step, and the host's way to place an instruction where it is fetched. Both only call
Sys2Proof/Machine/Cycle.lean. -/

namespace Sys2Proof.Machine

/-- One step of the core (40_cycle.md R80). -/
def step (s : State) : Host.Outcome State Fault Refusal := cycle s

/-- `s` with the word that `nbits` and `w` spell stored where `step` fetches next (log 11). -/
def State.withFetchWord (s : State) (nbits w : Nat) : State := s.placeWord nbits w

end Sys2Proof.Machine
end

