-- ==== Sys2Proof/Machine/Codec.lean ====
section
/-! DEFINITION. The Word Codec (30_encoding.md R54 to R58): the external text form of a word, a program line's entry, and the
spec's listing form (R68). Texts are lists of characters. The core itself never sees text (60_exceptions.md R102). -/

namespace Sys2Proof.Machine

/-- The codec's errors (60_exceptions.md R102). -/
inductive CodecError where
  /-- `FormatError`: the text is no word (30_encoding.md R55). -/
  | formatError
  /-- `RangeError`: the value is no word (30_encoding.md R56). -/
  | rangeError
  deriving DecidableEq, Repr

/-- A decimal digit character, `'0' .. '9'`. -/
def isDigit (ch : Char) : Bool := decide (48 ≤ ch.toNat) && decide (ch.toNat ≤ 57)

/-- The value of a digit character. -/
def digitValue (ch : Char) : Nat := ch.toNat - 48

/-- The character of a digit. -/
def digitChar (d : Nat) : Char := Char.ofNat (48 + d)

/-- The decimal value of a digit text, most significant digit first (30_encoding.md R54). -/
def valueOf (t : List Char) : Nat := t.foldl (fun n ch => 10 * n + digitValue ch) 0

/-- The `k` least significant decimal digits of `n`, most significant first, zero-padded (30_encoding.md R54). -/
def digitsOf (k n : Nat) : List Char :=
  match k with
  | 0 => []
  | j + 1 => digitsOf j (n / 10) ++ [digitChar (n % 10)]

/-- `parse(text)` (30_encoding.md R55). -/
def parseWord (c : Config) (t : List Char) : Except CodecError Int :=
  match t with
  | [] => .error .formatError
  | sign :: ds =>
    if ds.length ≠ c.wordDigits then .error .formatError
    else if ¬ (sign = '+' ∨ sign = '-') then .error .formatError
    else if ds.all isDigit then .ok (if sign = '-' then -(valueOf ds : Int) else (valueOf ds : Int))
    else .error .formatError

/-- `format(v)` (30_encoding.md R56). -/
def formatWord (c : Config) (v : Int) : Except CodecError (List Char) :=
  if c.InWord v then .ok ((if v < 0 then '-' else '+') :: digitsOf c.wordDigits v.natAbs) else .error .rangeError

/-- One entry of a program to load (20_memory.md R47). -/
inductive LoadEntry where
  /-- `Word(v)`, a well-formed word. -/
  | word (v : Int)
  /-- `Malformed`, a line whose first token is no word. -/
  | malformed
  deriving DecidableEq, Repr

/-- White space between tokens. PRESUMED (log 14): space, tab, line feed, vertical tab, form feed, carriage return. -/
def isSpace (ch : Char) : Bool := ch.toNat == 32 || (decide (9 ≤ ch.toNat) && decide (ch.toNat ≤ 13))

/-- A line's first white-space-delimited token (30_encoding.md R58). -/
def firstToken (line : List Char) : List Char := (line.dropWhile isSpace).takeWhile (fun ch => !isSpace ch)

/-- The load entry of one program line; a line with no token is malformed (30_encoding.md R58; 92_eei_decisions.md D24). -/
def entryOfLine (c : Config) (line : List Char) : LoadEntry :=
  match parseWord c (firstToken line) with
  | .ok v => .word v
  | .error _ => .malformed

/-- The mnemonic of an instruction (30_encoding.md R63, R68). -/
def mnemonic : Instr → String
  | .read _ => "READ"
  | .write _ => "WRITE"
  | .load _ => "LOAD"
  | .store _ => "STORE"
  | .add _ => "ADD"
  | .subtract _ => "SUBTRACT"
  | .divide _ => "DIVIDE"
  | .multiply _ => "MULTIPLY"
  | .branch _ => "BRANCH"
  | .branchneg _ => "BRANCHNEG"
  | .branchzero _ => "BRANCHZERO"
  | .halt _ => "HALT"

/-- The spec's listing form, `MNEMONIC aa` with the operand as `A` digits (30_encoding.md R68; 92_eei_decisions.md D24). -/
def listing (c : Config) (i : Instr) : List Char :=
  (mnemonic i).toList ++ ' ' :: digitsOf c.operandDigits i.operand

end Sys2Proof.Machine
end

