-- ==== Sys2Proof/Machine/HostPort.lean ====
section
/-! DEFINITION. The host's memory port (20_memory.md R44 to R47), as what each operation does when it is allowed; when it is
allowed (R48) is decided in Sys2Proof/Machine/HostControl.lean. Its errors go to the host: no operation here writes `RS`,
`CAUSE` or `INFO`. -/

namespace Sys2Proof.Machine

/-- What a port operation answers. -/
inductive PortReply where
  /-- `Ok`. -/
  | ok
  /-- `Ok(M[a])`. -/
  | word (v : Int)
  /-- `Err(AddressError)`. -/
  | addressError
  /-- `Err(FormatError)`. -/
  | formatError
  /-- `Err(FormatError at i)`. -/
  | formatErrorAt (i : Nat)
  /-- `Err(RangeError)`. -/
  | rangeError
  deriving DecidableEq, Repr

/-- What the host may write: an integer, or a word's text (20_memory.md R45). -/
inductive PortValue where
  /-- A signed integer. -/
  | int (v : Int)
  /-- A text to be parsed. -/
  | text (t : List Char)
  deriving DecidableEq, Repr

/-- The host's address check, on any integer (20_memory.md R31). -/
abbrev State.hostAddress (s : State) (a : Int) : Prop := 0 ≤ a ∧ a < (s.cfg.memWords : Int)

/-- `HostRead(a)`: no state changes (20_memory.md R44). -/
def hostRead (a : Int) (s : State) : PortReply :=
  if s.hostAddress a then .word (s.mem.read a.toNat) else .addressError

/-- Write an integer at a checked address: the range check of 20_memory.md R45. -/
def hostWriteInt (a : Nat) (v : Int) (s : State) : PortReply × State :=
  if s.cfg.InWord v then (.ok, s.setWord a v) else (.rangeError, s)

/-- `HostWrite(a, v)`: the address first, then the text, then the range (20_memory.md R45; 92_eei_decisions.md D8). -/
def hostWrite (a : Int) (v : PortValue) (s : State) : PortReply × State :=
  if s.hostAddress a then
    match v with
    | .int v => hostWriteInt a.toNat v s
    | .text t =>
      match parseWord s.cfg t with
      | .error _ => (.formatError, s)
      | .ok v => hostWriteInt a.toNat v s
  else (.addressError, s)

/-- `HostClear()`: every word becomes 0; never fails (20_memory.md R46). -/
def hostClear (s : State) : PortReply × State := (.ok, { s with mem := [] })

/-- The word an entry loads, if it is well formed. DESIGN CHOICE (log 12): `Word(v)` with `v` outside word range, which no parsed
entry is, counts as malformed. -/
def LoadEntry.value (c : Config) (e : LoadEntry) : Option Int :=
  match e with
  | .word v => if c.InWord v then some v else none
  | .malformed => none

/-- The loop of `HostLoad` from address `i` on, with both policies for a malformed entry (20_memory.md R47). -/
def loadFrom (i : Nat) (items : List LoadEntry) (s : State) : PortReply × State :=
  match items with
  | [] => (.ok, s)
  | e :: rest =>
    match e.value s.cfg with
    | some v => loadFrom (i + 1) rest (s.setWord i v)
    | none =>
      match s.cfg.loadPolicy with
      | .zeroAndContinue => loadFrom (i + 1) rest (s.setWord i 0)
      | .abort => (.formatErrorAt i, s)

/-- `HostLoad(items)`: the size check before any write (20_memory.md R47; 92_eei_decisions.md D16). -/
def hostLoad (items : List LoadEntry) (s : State) : PortReply × State :=
  if s.cfg.memWords < items.length then (.rangeError, s) else loadFrom 0 items s

end Sys2Proof.Machine
end

