-- ==== Sys2Proof/Machine/HostControl.lean ====
section
/-! DEFINITION. The host control interface (60_exceptions.md R113 to R124): boot, run, single step, stop request, input, the
status view and the memory port, as events between steps. `react` is the whole of it: what the block does at each event, and
which events have no transition (R120). -/

namespace Sys2Proof.Machine

/-- The outcome of an executed step (40_cycle.md R72). -/
inductive StepOutcome where
  /-- `Continue`. -/
  | continued
  /-- `Halted`. -/
  | halted
  /-- `Failed(cause)`. -/
  | failed (c : Cause)
  deriving DecidableEq, Repr

/-- The outcome read from the state an executed step leaves (40_cycle.md R72, R81). -/
def stepOutcome (t : State) : StepOutcome :=
  match t.rs with
  | .halted => .halted
  | .aborted => .failed t.cause
  | _ => .continued

/-- The host's status view (60_exceptions.md R118); memory is read through the port. -/
structure StatusView where
  /-- `ACC`. -/
  acc : Int
  /-- `PC`. -/
  pc : Nat
  /-- `RS`. -/
  rs : RunState
  /-- `HALTED`. -/
  halted : Bool
  /-- `SR`. -/
  sr : Nat
  /-- `CAUSE`. -/
  cause : Cause
  /-- `INFO`. -/
  info : Int
  deriving DecidableEq, Repr

/-- Reading the status changes nothing (60_exceptions.md R118). -/
def statusView (s : State) : StatusView :=
  { acc := s.acc, pc := s.pc, rs := s.rs, halted := s.halted, sr := s.sr, cause := s.cause, info := s.info }

/-- An event at the block's boundary, between two steps (60_exceptions.md R119's table). -/
inductive Event where
  /-- The host boots. -/
  | boot
  /-- The host issues `run(continue)`. -/
  | run (resume : Bool)
  /-- The active run's loop goes on by one pass. -/
  | proceed
  /-- The host issues `single_step()`. -/
  | singleStep
  /-- The host raises the stop request. -/
  | stopRequest
  /-- The host supplies one input value. -/
  | input (v : Int)
  /-- The host reads the status view. -/
  | status
  /-- `HostRead(a)`. -/
  | hostRead (a : Int)
  /-- `HostWrite(a, v)`. -/
  | hostWrite (a : Int) (v : PortValue)
  /-- `HostClear()`. -/
  | hostClear
  /-- `HostLoad(items)`. -/
  | hostLoad (items : List LoadEntry)
  deriving DecidableEq, Repr

/-- What the core gives back at an event (60_exceptions.md R119's table). -/
inductive Reply where
  /-- Nothing to report. -/
  | done
  /-- A step was executed, with this outcome; `halted` and `failed` also end a run (R113). -/
  | stepped (o : StepOutcome)
  /-- `Stopped(RS, CAUSE)`: nothing was executed (R115). -/
  | stopped (rs : RunState) (c : Cause)
  /-- `Paused`, by the stop request (R116). -/
  | paused
  /-- The step waits for input (41_io.md R85). -/
  | waiting
  /-- The memory port's answer. -/
  | port (r : PortReply)
  /-- The status view. -/
  | view (v : StatusView)
  deriving DecidableEq, Repr

/-- A run is active (20_memory.md R48). -/
def State.runActive (s : State) : Bool := s.runPhase != .idle

/-- In a state that is not terminal: issue one step if it is enabled, and leave the run at `after` of the state the step gives; a
waiting READ leaves the run at `phase` (60_exceptions.md R113; 41_io.md R85). DESIGN CHOICE (safe, log 16): a command that would block answers `waiting`. -/
def issueStep (phase : RunPhase) (after : State → RunPhase) (s : State) : Host.Outcome (Reply × State) Fault Refusal :=
  if s.stepEnabled then
    match step s with
    | .next t => .next (.stepped (stepOutcome t), { t with runPhase := after t })
    | .fault f => .fault f
    | .refused r => .refused r
  else .next (.waiting, { s with runPhase := phase })

/-- `single_step()` (60_exceptions.md R114): nothing in a terminal state (R115); a READ waits for its input like any other step. -/
def singleStep (s : State) : Host.Outcome (Reply × State) Fault Refusal :=
  if s.terminal then .next (.stopped s.rs s.cause, s) else issueStep .idle (fun _ => .idle) s

/-- The command `run(continue)`: boot unless continuing, then enter the loop (60_exceptions.md R113). -/
def beginRun (resume : Bool) (s : State) : State :=
  { (if resume then s else s.boot) with runPhase := .loopTop }

/-- After a step inside a run: back to the loop's top, or out of the loop when the machine has stopped (60_exceptions.md R113). -/
def phaseAfterStep (t : State) : RunPhase := if t.terminal then .idle else .loopTop

/-- One pass of the `run` loop (60_exceptions.md R113): the terminal check, the stop check, the wait, the step. Once the stop check is
passed a later stop request waits for the next pass (R116). -/
def proceedRun (s : State) : Host.Outcome (Reply × State) Fault Refusal :=
  if s.runPhase = .idle then .refused .noActiveRun
  else if s.terminal then .next (.stopped s.rs s.cause, { s with runPhase := .idle })
  else if s.runPhase = .loopTop && s.stopRequest then .next (.paused, { s with runPhase := .idle, stopRequest := false })
  else issueStep .committed phaseAfterStep s

/-- A memory-port operation, which has no transition while a run is active (20_memory.md R48; 60_exceptions.md R120). -/
def atPort (r : PortReply × State) (s : State) : Host.Outcome (Reply × State) Fault Refusal :=
  if s.runActive then .refused .brokenHostDuty else .next (.port r.1, r.2)

/-- What the block does at an event. DESIGN CHOICE (log 10): `run` and `single_step` during an active run have no transition, and a boot
during one leaves it active. -/
def react (e : Event) (s : State) : Host.Outcome (Reply × State) Fault Refusal :=
  match e with
  | .boot => .next (.done, s.boot)
  | .run resume => if s.runActive then .refused .brokenHostDuty else .next (.done, beginRun resume s)
  | .proceed => proceedRun s
  | .singleStep => if s.runActive then .refused .brokenHostDuty else singleStep s
  | .stopRequest => .next (.done, { s with stopRequest := true })
  | .input v => .next (.done, { s with input := s.input ++ [v] })
  | .status => .next (.view (statusView s), s)
  | .hostRead a => atPort (Sys2Proof.Machine.hostRead a s, s) s
  | .hostWrite a v => atPort (Sys2Proof.Machine.hostWrite a v s) s
  | .hostClear => atPort (Sys2Proof.Machine.hostClear s) s
  | .hostLoad items => atPort (Sys2Proof.Machine.hostLoad items s) s

/-- At most `fuel` passes of the active run's loop, ending early when the run does or when it waits for input. -/
def runLoop (fuel : Nat) (s : State) : Host.Outcome (Reply × State) Fault Refusal :=
  match fuel with
  | 0 => .next (.done, s)
  | n + 1 =>
    match proceedRun s with
    | .next (.stepped .continued, t) => runLoop n t
    | r => r

/-- The whole command `run(continue)` with no other event before it ends (60_exceptions.md R113). `MAX_STEPS` passes and one are enough
(60_exceptions.md R123; log 16). -/
def runCommand (resume : Bool) (s : State) : Host.Outcome (Reply × State) Fault Refusal :=
  runLoop (s.cfg.maxSteps + 1) (beginRun resume s)

end Sys2Proof.Machine
end

