-- ==== Sys2Proof/Safety.lean ====
section
/-! DEFINITION. What a good state and a good end of a run are, in the terms the claims use. -/

namespace Sys2Proof.Machine

/-- The invariants of 10_state.md R30, in its order, over the model's memory list, with the parameters' constraints of
00_scope.md R4 and the list's canonical form. -/
structure Inv (s : State) : Prop where
  /-- 00_scope.md R4. -/
  valid : s.cfg.Valid
  /-- R30 item 1: `HALTED = 1` exactly when `RS = HALTED`. -/
  halted_iff : s.halted = true ↔ s.rs = .halted
  /-- R30 item 2: `CAUSE = NONE` exactly when `RS != ABORTED`. -/
  cause_iff : s.cause = .none ↔ s.rs ≠ .aborted
  /-- R30 item 3: `SR >= 1` when `RS` is `READY` or `RUNNING`. -/
  budget : s.terminal = false → 1 ≤ s.sr
  /-- R30 item 4: every word is in word range. -/
  words : ∀ a, s.cfg.InWord (s.mem.read a)
  /-- R30 item 5: no word stands at an address `N` or above. -/
  size : ∀ p ∈ s.mem, p.1 < s.cfg.memWords
  /-- R30 item 6. -/
  pc_le : s.pc ≤ max s.cfg.memWords (s.cfg.opBase - 1)
  /-- The memory list is canonical. -/
  mem_wf : Memory.wf s.mem

/-- `u` with one completed instruction counted, for `SR >= 1` (40_cycle.md R79, R81's last row): the core is `RUNNING` with
one step less, or aborted by the step budget when none is left. -/
def State.counted (u : State) : State :=
  if u.sr = 1 then { u with rs := .aborted, sr := 0, cause := .stepBudgetExceeded, info := 0 }
  else { u with rs := .running, sr := u.sr - 1 }

/-- A run has ended well (60_exceptions.md R123, R124): `HALTED`, with no abort cause. -/
abbrev State.succeeded (s : State) : Prop := s.rs = .halted ∧ s.cause = .none

/-- A run has ended in an abort (60_exceptions.md R123, R124). -/
abbrev State.failed (s : State) : Prop := s.rs = .aborted ∧ s.cause ≠ .none

end Sys2Proof.Machine
end

