-- ==== Sys2Proof/Certificates/Slice0/Obligations.lean ====
section
/-! DEFINITION. The statements for the provers. Each is about every state, operand or configuration (the five parameters of
00_scope.md R4 are fields of the state), unless its docstring says otherwise. In the instruction statements, `{ s with … }`
names every piece of state the instruction may change, so that equation is also its frame; `State.counted`
(Sys2Proof/Safety.lean) is the count of 40_cycle.md R79. -/

open Sys2Proof Sys2Proof.Machine

/-! ### Encoding and decoding -/

/-- Decoding the encoding of a well-formed instruction gives it back (30_encoding.md §4, §7). -/
def Obligations.DecodeOfEncodeIsIdentity : Prop :=
  ∀ (c : Config) (i : Instr), c.Valid → i.WellFormed c → decode c (encode c i) = .ok i

/-- A word decodes to at most the one instruction it encodes, and only words in word range decode (30_encoding.md §4, §7). -/
def Obligations.EncodeOfDecodeIsIdentity : Prop :=
  ∀ (c : Config) (w : Int) (i : Instr), c.Valid → decode c w = .ok i →
    i.WellFormed c ∧ encode c i = w ∧ c.InWord w

/-- R67: every word of memory falls in exactly one row of the decode table, and the step does what that row says. -/
def Obligations.StepClassifiesFetchedWord : Prop :=
  ∀ (s : State) (w : Int), s.cfg.Valid → s.terminal = false → s.pc < s.cfg.memWords → w = s.mem.read s.pc → s.cfg.InWord w →
    (w < 0 → step s = .next { s with pc := s.pc + 1, rs := .aborted, cause := .negativeOperation, info := w }) ∧
    (0 ≤ w → w < 10 ^ (s.cfg.wordDigits - 1) →
      step s = .next { s with pc := s.pc + 1, rs := .aborted, cause := .operationTooSmall, info := w }) ∧
    (∀ (op : Int) (i : Nat → Instr),
      (op, i) ∈ [((10 : Int), Instr.read), (11, .write), (20, .load), (21, .store), (30, .add), (31, .subtract),
        (32, .divide), (33, .multiply), (40, .branch), (41, .branchneg), (42, .branchzero), (43, .halt)] →
      10 ^ (s.cfg.wordDigits - 1) ≤ w → w / 10 ^ (s.cfg.wordDigits - 2) = op →
      step s = exec (i (w % 10 ^ (s.cfg.wordDigits - 2)).toNat) s) ∧
    (10 ^ (s.cfg.wordDigits - 1) ≤ w →
      w / 10 ^ (s.cfg.wordDigits - 2) ∉ [(10 : Int), 11, 20, 21, 30, 31, 32, 33, 40, 41, 42, 43] →
      step s = .next { s with pc := s.pc + 1, rs := .aborted, cause := .invalidOperator, info := w })

/-- Words written out from 30_encoding.md §5 and the spec's vectors, at `W = 4`, `3`, `5` and `6`. -/
def Obligations.SampleWordsDecode : Prop :=
  decode Config.reference 1099 = .ok (.read 99) ∧ decode Config.reference 1100 = .ok (.write 0) ∧
  decode Config.reference 2010 = .ok (.load 10) ∧ decode Config.reference 3211 = .ok (.divide 11) ∧
  decode Config.reference 4259 = .ok (.branchzero 59) ∧ decode Config.reference 4399 = .ok (.halt 99) ∧
  decode { Config.reference with wordDigits := 3 } 205 = .ok (.load 5) ∧
  decode { Config.reference with wordDigits := 5 } 20123 = .ok (.load 123) ∧
  decode { Config.reference with wordDigits := 6 } 10000 = .error .operationTooSmall ∧
  decode { Config.reference with wordDigits := 6 } 200300 = .ok (.load 300)

/-- R69: the encoding of a listing line, and the refusal of an operand that does not fit. -/
def Obligations.AssembleEncodesListingLine : Prop :=
  ∀ (c : Config) (a : Nat) (op : Nat) (i : Nat → Instr),
    (op, i) ∈ [(10, Instr.read), (11, .write), (20, .load), (21, .store), (30, .add), (31, .subtract),
      (32, .divide), (33, .multiply), (40, .branch), (41, .branchneg), (42, .branchzero), (43, .halt)] →
    (a < 10 ^ (c.wordDigits - 2) → assemble c (i a) = some (op * 10 ^ (c.wordDigits - 2) + a : Int)) ∧
    (10 ^ (c.wordDigits - 2) ≤ a → assemble c (i a) = none)

/-- R57: the two round trips of the word text, and the one text that parses without being canonical. -/
def Obligations.WordTextRoundTrip : Prop :=
  ∀ c : Config,
    (∀ v : Int, c.InWord v → ∃ t, formatWord c v = .ok t ∧ parseWord c t = .ok v) ∧
    (∀ ds : List Char, ds.length = c.wordDigits → (∀ d ∈ ds, '0' ≤ d ∧ d ≤ '9') →
      ∃ v, parseWord c ('+' :: ds) = .ok v ∧ formatWord c v = .ok ('+' :: ds)) ∧
    (∀ ds : List Char, ds.length = c.wordDigits → (∀ d ∈ ds, '0' ≤ d ∧ d ≤ '9') → (∃ d ∈ ds, d ≠ '0') →
      ∃ v, parseWord c ('-' :: ds) = .ok v ∧ formatWord c v = .ok ('-' :: ds)) ∧
    parseWord c ('-' :: List.replicate c.wordDigits '0') = .ok 0 ∧
    formatWord c 0 = .ok ('+' :: List.replicate c.wordDigits '0')

/-- R55: which texts parse, and to what value; the digits are read with Mathlib's `Nat.ofDigits`, least significant first. -/
def Obligations.ParseAcceptsExactlyWordTexts : Prop :=
  ∀ (c : Config) (t : List Char),
    (∀ (sign : Char) (ds : List Char), t = sign :: ds → ds.length = c.wordDigits → (sign = '+' ∨ sign = '-') →
      (∀ d ∈ ds, '0' ≤ d ∧ d ≤ '9') →
      parseWord c t = .ok ((if sign = '-' then -1 else 1) * ((Nat.ofDigits 10 (ds.reverse.map (fun d => d.toNat - 48)) : Nat) : Int))) ∧
    (¬ (∃ (sign : Char) (ds : List Char), t = sign :: ds ∧ ds.length = c.wordDigits ∧ (sign = '+' ∨ sign = '-') ∧
        ∀ d ∈ ds, '0' ≤ d ∧ d ≤ '9') →
      parseWord c t = .error .formatError) ∧
    (∀ v, parseWord c t = .ok v → c.InWord v)

/-- R56: a value in word range formats as its sign and exactly `W` digits of its magnitude; any other value is refused. -/
def Obligations.FormatGivesSignAndDigits : Prop :=
  ∀ (c : Config) (v : Int),
    (c.InWord v → ∃ ds : List Char, formatWord c v = .ok ((if v < 0 then '-' else '+') :: ds) ∧
      ds.length = c.wordDigits ∧ (∀ d ∈ ds, '0' ≤ d ∧ d ≤ '9') ∧
      Nat.ofDigits 10 (ds.reverse.map (fun d => d.toNat - 48)) = v.natAbs) ∧
    (¬ c.InWord v → formatWord c v = .error .rangeError)

/-! ### The step -/

/-- When the word at `PC` decodes to `i`, the step is `exec i`: nothing stands around it (40_cycle.md §2, §3). -/
def Obligations.StepRunsDecodedInstruction : Prop :=
  ∀ (s : State) (i : Instr), s.cfg.Valid → s.terminal = false → s.pc < s.cfg.memWords →
    decode s.cfg (s.mem.read s.pc) = .ok i → step s = exec i s

/-- R74: the fetch reads `M[PC]`, and outside memory it aborts with `PC`, `ACC` and `M` unchanged. -/
def Obligations.FetchReadsOrAborts : Prop :=
  ∀ s : State,
    (s.pc < s.cfg.memWords → fetch s = .ok (s.mem.read s.pc)) ∧
    (s.cfg.Valid → s.terminal = false → s.cfg.memWords ≤ s.pc →
      step s = .next { s with rs := .aborted, cause := .addressErrorFetch, info := s.pc })

/-- A step of a machine with valid parameters always answers a next state: no fault, no refusal (R67, R77). -/
def Obligations.StepAlwaysAnswersNextState : Prop :=
  ∀ s : State, s.cfg.Valid → ∃ t, step s = .next t

/-- R72 and R78: the outcomes of an enabled step. What each leaves follows the table of 40_cycle.md §4: everything, for a step that
does not complete its instruction; `PC`, `SR`, `RS`, `CAUSE` and `INFO`, for one that does. -/
def Obligations.StepOutcomesLeaveTabulatedState : Prop :=
  ∀ s t : State, Inv s → s.terminal = false → s.waiting = false → step s = .next t →
    (s.cfg.memWords ≤ s.pc ∧ t = { s with rs := .aborted, cause := .addressErrorFetch, info := s.pc }) ∨
    (∃ c ∈ [Cause.negativeOperation, .operationTooSmall, .invalidOperator],
      t = { s with pc := s.pc + 1, rs := .aborted, cause := c, info := s.mem.read s.pc }) ∨
    (∃ c ∈ [Cause.addressErrorOperand, .divideByZero, .rangeError], ∃ (i : Int) (inp : List Int),
      t = { s with pc := s.pc + 1, rs := .aborted, cause := c, info := i, input := inp } ∧
      (inp = s.input ∨ ∃ (a : Nat) (v : Int), nextInstr s = some (.read a) ∧ s.input = v :: inp)) ∨
    (∃ a, nextInstr s = some (.halt a) ∧ t = { s with pc := s.pc + 1, rs := .halted }) ∨
    (∃ i, nextInstr s = some i ∧ t.sr + 1 = s.sr ∧
      (t.pc = s.pc + 1 ∨
        (t.pc = i.operand ∧ i ∈ [Instr.branch i.operand, .branchneg i.operand, .branchzero i.operand])) ∧
      ((t.rs = .running ∧ 1 ≤ t.sr ∧ t.cause = .none ∧ t.info = s.info) ∨
       (t.rs = .aborted ∧ t.sr = 0 ∧ t.cause = .stepBudgetExceeded ∧ t.info = 0)))

/-- In `HALTED` and `ABORTED` no step is enabled and nothing moves until a boot: the step, `single_step` and `run(true)` change no
state, and `run(false)` is `run(true)` after a boot (60_exceptions.md §6). That the model's `step` and `single_step` answer at all,
the step with the state itself, is its own convention (log 7). -/
def Obligations.TerminalStatesStayUntilBoot : Prop :=
  ∀ s : State, s.cfg.Valid → s.terminal = true →
    s.stepEnabled = false ∧ step s = .next s ∧
    (s.runPhase = .idle →
      react .singleStep s = .next (.stopped s.rs s.cause, s) ∧
      runCommand true s = .next (.stopped s.rs s.cause, s) ∧
      s.boot.rs = .ready ∧ runCommand false s = runCommand true s.boot)

/-- A core that stands at a READ with no input ready takes no step and changes nothing (41_io.md, READ's "Wait"). Two conventions of
the model's own stand here: its step, and its READ, then answer the state itself (log 6); its `single_step`, which by R114 itself
waits, answers `waiting` and hands control back, so that the host asks again (log 16). -/
def Obligations.ReadWithoutInputChangesNothing : Prop :=
  (∀ (s : State) (a : Nat), s.input = [] → exec (.read a) s = .next s) ∧
  ∀ (s : State) (a : Nat), s.cfg.Valid → s.terminal = false → nextInstr s = some (.read a) → s.input = [] →
    s.stepEnabled = false ∧ step s = .next s ∧ (s.runPhase = .idle → react .singleStep s = .next (.waiting, s))

/-! ### The instructions -/

/-- R85: READ. Its step is enabled exactly when an input value is ready; what the model answers when none is, is
`ReadWithoutInputChangesNothing`. -/
def Obligations.ReadInstruction : Prop :=
  (∀ (c : Config) (a : Nat), c.Valid → a < 10 ^ (c.wordDigits - 2) →
    decode c (10 * 10 ^ (c.wordDigits - 2) + a) = .ok (.read a)) ∧
  (∀ (s : State) (a : Nat), s.terminal = false → nextInstr s = some (.read a) → (s.stepEnabled = true ↔ s.input ≠ [])) ∧
  ∀ (s : State) (a : Nat) (v : Int) (rest : List Int), s.terminal = false → s.input = v :: rest →
    (a < s.cfg.memWords → s.cfg.InWord v → 1 ≤ s.sr → Memory.wf s.mem →
      exec (.read a) s = .next { s with pc := s.pc + 1, input := rest, mem := s.mem.write a v }.counted ∧
      (s.mem.write a v).read a = v ∧ (∀ b, b ≠ a → (s.mem.write a v).read b = s.mem.read b) ∧
      fetch { s with pc := a, mem := s.mem.write a v } = .ok v) ∧
    (a < s.cfg.memWords → ¬ s.cfg.InWord v →
      exec (.read a) s =
        .next { s with pc := s.pc + 1, input := rest, rs := .aborted, cause := .rangeError, info := v }) ∧
    (s.cfg.memWords ≤ a →
      exec (.read a) s =
        .next { s with pc := s.pc + 1, input := rest, rs := .aborted, cause := .addressErrorOperand, info := a })

/-- R86: WRITE. -/
def Obligations.WriteInstruction : Prop :=
  (∀ (c : Config) (a : Nat), c.Valid → a < 10 ^ (c.wordDigits - 2) →
    decode c (11 * 10 ^ (c.wordDigits - 2) + a) = .ok (.write a)) ∧
  ∀ (s : State) (a : Nat), s.terminal = false →
    (a < s.cfg.memWords → 1 ≤ s.sr →
      exec (.write a) s = .next { s with pc := s.pc + 1, output := s.output ++ [s.mem.read a] }.counted) ∧
    (s.cfg.memWords ≤ a →
      exec (.write a) s =
        .next { s with pc := s.pc + 1, rs := .aborted, cause := .addressErrorOperand, info := a })

/-- R87: LOAD. -/
def Obligations.LoadInstruction : Prop :=
  (∀ (c : Config) (a : Nat), c.Valid → a < 10 ^ (c.wordDigits - 2) →
    decode c (20 * 10 ^ (c.wordDigits - 2) + a) = .ok (.load a)) ∧
  ∀ (s : State) (a : Nat), s.terminal = false →
    (a < s.cfg.memWords → 1 ≤ s.sr →
      exec (.load a) s = .next { s with pc := s.pc + 1, acc := s.mem.read a }.counted ∧
      (Inv s → s.cfg.InWord (s.mem.read a))) ∧
    (s.cfg.memWords ≤ a →
      exec (.load a) s =
        .next { s with pc := s.pc + 1, rs := .aborted, cause := .addressErrorOperand, info := a })

/-- R88: STORE. -/
def Obligations.StoreInstruction : Prop :=
  (∀ (c : Config) (a : Nat), c.Valid → a < 10 ^ (c.wordDigits - 2) →
    decode c (21 * 10 ^ (c.wordDigits - 2) + a) = .ok (.store a)) ∧
  ∀ (s : State) (a : Nat), s.terminal = false →
    (a < s.cfg.memWords → s.cfg.InWord s.acc → 1 ≤ s.sr → Memory.wf s.mem →
      exec (.store a) s = .next { s with pc := s.pc + 1, mem := s.mem.write a s.acc }.counted ∧
      (s.mem.write a s.acc).read a = s.acc ∧ (∀ b, b ≠ a → (s.mem.write a s.acc).read b = s.mem.read b) ∧
      fetch { s with pc := a, mem := s.mem.write a s.acc } = .ok s.acc) ∧
    (a < s.cfg.memWords → ¬ s.cfg.InWord s.acc →
      exec (.store a) s =
        .next { s with pc := s.pc + 1, rs := .aborted, cause := .rangeError, info := s.acc }) ∧
    (s.cfg.memWords ≤ a →
      exec (.store a) s =
        .next { s with pc := s.pc + 1, rs := .aborted, cause := .addressErrorOperand, info := a })

/-- R89: ADD. -/
def Obligations.AddInstruction : Prop :=
  (∀ (c : Config) (a : Nat), c.Valid → a < 10 ^ (c.wordDigits - 2) →
    decode c (30 * 10 ^ (c.wordDigits - 2) + a) = .ok (.add a)) ∧
  ∀ (s : State) (a : Nat), s.terminal = false →
    (a < s.cfg.memWords → 1 ≤ s.sr →
      exec (.add a) s = .next { s with pc := s.pc + 1, acc := s.acc + s.mem.read a }.counted) ∧
    (s.cfg.memWords ≤ a →
      exec (.add a) s =
        .next { s with pc := s.pc + 1, rs := .aborted, cause := .addressErrorOperand, info := a })

/-- R90: SUBTRACT. -/
def Obligations.SubtractInstruction : Prop :=
  (∀ (c : Config) (a : Nat), c.Valid → a < 10 ^ (c.wordDigits - 2) →
    decode c (31 * 10 ^ (c.wordDigits - 2) + a) = .ok (.subtract a)) ∧
  ∀ (s : State) (a : Nat), s.terminal = false →
    (a < s.cfg.memWords → 1 ≤ s.sr →
      exec (.subtract a) s = .next { s with pc := s.pc + 1, acc := s.acc - s.mem.read a }.counted) ∧
    (s.cfg.memWords ≤ a →
      exec (.subtract a) s =
        .next { s with pc := s.pc + 1, rs := .aborted, cause := .addressErrorOperand, info := a })

/-- R91 and R95: DIVIDE, with Lean's own truncating and flooring quotients, and the zero divisor. -/
def Obligations.DivideInstruction : Prop :=
  (∀ (c : Config) (a : Nat), c.Valid → a < 10 ^ (c.wordDigits - 2) →
    decode c (32 * 10 ^ (c.wordDigits - 2) + a) = .ok (.divide a)) ∧
  (∀ (s : State) (a : Nat), s.terminal = false →
    (a < s.cfg.memWords → s.mem.read a ≠ 0 → 1 ≤ s.sr →
      exec (.divide a) s = .next { s with pc := s.pc + 1, acc :=
        if s.cfg.divMode = DivMode.trunc then Int.tdiv s.acc (s.mem.read a) else Int.fdiv s.acc (s.mem.read a) }.counted) ∧
    (a < s.cfg.memWords → s.mem.read a = 0 →
      exec (.divide a) s =
        .next { s with pc := s.pc + 1, rs := .aborted, cause := .divideByZero, info := a }) ∧
    (s.cfg.memWords ≤ a →
      exec (.divide a) s =
        .next { s with pc := s.pc + 1, rs := .aborted, cause := .addressErrorOperand, info := a })) ∧
  ∀ m : Int, m ≠ 0 → Int.tdiv 0 m = 0 ∧ Int.fdiv 0 m = 0

/-- R92: MULTIPLY. -/
def Obligations.MultiplyInstruction : Prop :=
  (∀ (c : Config) (a : Nat), c.Valid → a < 10 ^ (c.wordDigits - 2) →
    decode c (33 * 10 ^ (c.wordDigits - 2) + a) = .ok (.multiply a)) ∧
  ∀ (s : State) (a : Nat), s.terminal = false →
    (a < s.cfg.memWords → 1 ≤ s.sr →
      exec (.multiply a) s = .next { s with pc := s.pc + 1, acc := s.acc * s.mem.read a }.counted) ∧
    (s.cfg.memWords ≤ a →
      exec (.multiply a) s =
        .next { s with pc := s.pc + 1, rs := .aborted, cause := .addressErrorOperand, info := a })

/-- R96: BRANCH. A target outside memory aborts at the next fetch. -/
def Obligations.BranchInstruction : Prop :=
  (∀ (c : Config) (a : Nat), c.Valid → a < 10 ^ (c.wordDigits - 2) →
    decode c (40 * 10 ^ (c.wordDigits - 2) + a) = .ok (.branch a)) ∧
  ∀ (s : State) (a : Nat), s.terminal = false → 1 ≤ s.sr →
    exec (.branch a) s = .next { s with pc := a }.counted ∧
    (s.cfg.Valid → 2 ≤ s.sr → s.cfg.memWords ≤ a →
      step { s with pc := a }.counted =
        .next { s with pc := a, sr := s.sr - 1, rs := .aborted, cause := .addressErrorFetch, info := a })

/-- R97: BRANCHNEG. A taken target outside memory aborts at the next fetch. -/
def Obligations.BranchnegInstruction : Prop :=
  (∀ (c : Config) (a : Nat), c.Valid → a < 10 ^ (c.wordDigits - 2) →
    decode c (41 * 10 ^ (c.wordDigits - 2) + a) = .ok (.branchneg a)) ∧
  ∀ (s : State) (a : Nat), s.terminal = false → 1 ≤ s.sr →
    (s.acc < 0 → exec (.branchneg a) s = .next { s with pc := a }.counted ∧
      (s.cfg.Valid → 2 ≤ s.sr → s.cfg.memWords ≤ a →
        step { s with pc := a }.counted =
          .next { s with pc := a, sr := s.sr - 1, rs := .aborted, cause := .addressErrorFetch, info := a })) ∧
    (0 ≤ s.acc → exec (.branchneg a) s = .next { s with pc := s.pc + 1 }.counted)

/-- R98: BRANCHZERO. -/
def Obligations.BranchzeroInstruction : Prop :=
  (∀ (c : Config) (a : Nat), c.Valid → a < 10 ^ (c.wordDigits - 2) →
    decode c (42 * 10 ^ (c.wordDigits - 2) + a) = .ok (.branchzero a)) ∧
  ∀ (s : State) (a : Nat), s.terminal = false → 1 ≤ s.sr →
    (s.acc = 0 → exec (.branchzero a) s = .next { s with pc := a }.counted) ∧
    (s.acc ≠ 0 → exec (.branchzero a) s = .next { s with pc := s.pc + 1 }.counted)

/-- R99: HALT: every operand halts, no budget is consumed, and no step is enabled until a boot. -/
def Obligations.HaltInstruction : Prop :=
  (∀ (c : Config) (a : Nat), c.Valid → a < 10 ^ (c.wordDigits - 2) →
    decode c (43 * 10 ^ (c.wordDigits - 2) + a) = .ok (.halt a)) ∧
  (∀ (s : State) (a : Nat), s.terminal = false →
    exec (.halt a) s = .next { s with pc := s.pc + 1, rs := .halted }) ∧
  (∀ s : State, s.rs = .halted → s.stepEnabled = false) ∧
  ∀ s : State, s.boot.acc = 0 ∧ s.boot.pc = 0 ∧ s.boot.halted = false

/-- A taken branch to a target outside memory completes; the next step aborts at that target (44_control.md R100). -/
def Obligations.BranchOutsideMemoryAbortsAtNextFetch : Prop :=
  ∀ (s : State) (i : Instr) (a : Nat), s.cfg.Valid → s.terminal = false → 2 ≤ s.sr → s.cfg.memWords ≤ a →
    (i = .branch a ∨ (i = .branchneg a ∧ s.acc < 0) ∨ (i = .branchzero a ∧ s.acc = 0)) →
    ∃ t u, exec i s = .next t ∧ t.pc = a ∧ t.rs = .running ∧ step t = .next u ∧
      u = { t with rs := .aborted, cause := .addressErrorFetch, info := a }

/-- The two roundings of DIVIDE, as the model computes them (43_arithmetic.md §1; 00_scope.md §4): the truncated quotient is
`sign(a) * sign(b) * (|a| div |b|)`, the floored one the largest integer on the right side of `a`; when they agree; and that
neither moves away from zero. -/
def Obligations.DivisionRounding : Prop :=
  ∀ a b : Int, b ≠ 0 →
    quotient .trunc a b = a.sign * b.sign * ((a.natAbs / b.natAbs : Nat) : Int) ∧
    (0 < b → quotient .floor a b * b ≤ a ∧ ∀ q : Int, q * b ≤ a → q ≤ quotient .floor a b) ∧
    (b < 0 → a ≤ quotient .floor a b * b ∧ ∀ q : Int, a ≤ q * b → q ≤ quotient .floor a b) ∧
    (quotient .trunc a b = quotient .floor a b ↔ b ∣ a ∨ a.sign = b.sign ∨ a = 0) ∧
    (quotient .trunc a b).natAbs ≤ a.natAbs ∧ (quotient .floor a b).natAbs ≤ a.natAbs

/-! ### Invariants and whole-machine rules -/

/-- R30: every step, every boot and every other host event keep the invariants. `Inv` holds the six items, the constraints of R4
and the canonical form of the model's memory list (log 3). -/
def Obligations.StepsAndEventsKeepInvariants : Prop :=
  (∀ s t : State, Inv s → step s = .next t → Inv t) ∧ (∀ s : State, Inv s → Inv s.boot) ∧
  ∀ (e : Event) (s t : State) (r : Reply), Inv s → react e s = .next (r, t) → Inv t

/-- The invariants hold at power-on for every valid configuration, and at the model's reset. -/
def Obligations.PowerOnMeetsInvariants : Prop :=
  (∀ c : Config, c.Valid → Inv (State.powerOn c)) ∧ Inv State.reset

/-- Two canonical memories that read alike are the same data (model's own form of memory, log 3). -/
def Obligations.CanonicalMemoriesAreEqualIfReadAlike : Prop :=
  ∀ m n : Memory, Memory.wf m → Memory.wf n → (∀ a, m.read a = n.read a) → m = n

/-- In a step only READ and STORE write memory, and each only the word its operand names (20_memory.md §1's table). -/
def Obligations.OnlyReadAndStoreWriteMemory : Prop :=
  ∀ s t : State, step s = .next t → t.mem ≠ s.mem →
    ∃ a, (nextInstr s = some (.read a) ∨ nextInstr s = some (.store a)) ∧ a < s.cfg.memWords ∧
      ∀ b, b ≠ a → t.mem.read b = s.mem.read b

/-- In a step only LOAD and the four arithmetic instructions write `ACC` (10_state.md §1's lists). -/
def Obligations.OnlyLoadAndArithmeticWriteAcc : Prop :=
  ∀ s t : State, step s = .next t → t.acc ≠ s.acc →
    ∃ a, nextInstr s = some (.load a) ∨ nextInstr s = some (.add a) ∨ nextInstr s = some (.subtract a) ∨
      nextInstr s = some (.divide a) ∨ nextInstr s = some (.multiply a)

/-- R21: `HALTED` is 1 exactly when `RS = HALTED`; only a HALT instruction sets it, whether in a step or through any host event; an
abort leaves it 0; it stays until a boot. -/
def Obligations.HaltedSetOnlyByHaltClearedOnlyByBoot : Prop :=
  (∀ s : State, s.halted = true ↔ s.rs = .halted) ∧
  (∀ s t : State, step s = .next t → s.halted = false → t.halted = true → ∃ a, nextInstr s = some (.halt a)) ∧
  (∀ (e : Event) (s t : State) (r : Reply), react e s = .next (r, t) → s.halted = false → t.halted = true →
    (e = .singleStep ∨ e = .proceed) ∧ ∃ a, nextInstr s = some (.halt a)) ∧
  (∀ (s : State) (c : Cause) (i : Int), (s.raiseAbort c i).halted = false) ∧
  (∀ (e : Event) (s t : State) (r : Reply), react e s = .next (r, t) → s.halted = true → t.halted = false →
    e = .boot ∨ e = .run false)

/-- Only a boot leads back to `READY` (10_state.md §3; `run(false)` boots first). -/
def Obligations.OnlyBootReturnsToReady : Prop :=
  ∀ (e : Event) (s t : State) (r : Reply), react e s = .next (r, t) → t.rs = .ready → s.rs ≠ .ready →
    e = .boot ∨ e = .run false

/-- The output grows only at its end and only by a WRITE, with the word it names; the input shrinks only at its front and only
by a READ (60_exceptions.md §6). -/
def Obligations.ChannelsMoveOnlyByReadAndWrite : Prop :=
  ∀ s t : State, step s = .next t →
    (t.output = s.output ∨ ∃ a, nextInstr s = some (.write a) ∧ t.output = s.output ++ [s.mem.read a]) ∧
    (t.input = s.input ∨ ∃ (a : Nat) (v : Int), nextInstr s = some (.read a) ∧ s.input = v :: t.input)

/-- No step and no host event changes the parameters (00_scope.md §3; log 1 says the model holds them in its state). -/
def Obligations.ParametersNeverChange : Prop :=
  (∀ s t : State, step s = .next t → t.cfg = s.cfg) ∧
  (∀ (e : Event) (s t : State) (r : Reply), react e s = .next (r, t) → t.cfg = s.cfg)

/-- The stop request and the host's pacing have no effect on any step's result (93_implementation_defined.md §1, I16). -/
def Obligations.StopRequestDoesNotAffectStep : Prop :=
  ∀ (s t : State) (b : Bool) (p : RunPhase), step s = .next t →
    t.stopRequest = s.stopRequest ∧ t.runPhase = s.runPhase ∧
    step { s with stopRequest := b, runPhase := p } = .next { t with stopRequest := b, runPhase := p }

/-- What was output before never affects a step: the channel is only appended to (60_exceptions.md §6). -/
def Obligations.EarlierOutputDoesNotAffectStep : Prop :=
  ∀ (s t : State) (o : List Int), step s = .next t →
    step { s with output := o ++ s.output } = .next { t with output := o ++ t.output }

/-- A word written by STORE, by READ or by the host is what the next fetch from its address reads (20_memory.md §4). -/
def Obligations.WrittenWordSeenByNextFetch : Prop :=
  ∀ (s : State) (a : Nat), s.terminal = false → 1 ≤ s.sr → Memory.wf s.mem → a < s.cfg.memWords →
    (s.cfg.InWord s.acc → ∃ t, exec (.store a) s = .next t ∧ fetch { t with pc := a } = .ok s.acc) ∧
    (∀ (v : Int) (rest : List Int), s.input = v :: rest → s.cfg.InWord v →
      ∃ t, exec (.read a) s = .next t ∧ fetch { t with pc := a } = .ok v) ∧
    (∀ v : Int, s.cfg.InWord v → s.runPhase = .idle →
      ∃ t, react (.hostWrite a (.int v)) s = .next (.port .ok, t) ∧ fetch { t with pc := a } = .ok v)

/-- A core that is kept supplied with input is `HALTED` or `ABORTED` after at most `SR` steps, from every good state
(60_exceptions.md §7, 70_reset_and_hazards.md §4). -/
def Obligations.BudgetBoundsEveryRun : Prop :=
  ∀ s : State, Inv s → s.sr ≤ s.input.length →
    ∃ t : State, Host.Core.run Sys2Proof.core s.sr s = .next t ∧ (t.succeeded ∨ t.failed)

/-- `run(false)` on a machine kept supplied with input ends, with no run active, either `Halted` with no cause or
`Failed(CAUSE)` (60_exceptions.md §6, §7). -/
def Obligations.RunCommandReachesFinalState : Prop :=
  ∀ s : State, Inv s → s.cfg.maxSteps ≤ s.input.length →
    ∃ (r : Reply) (t : State), runCommand false s = .next (r, t) ∧ t.runPhase = .idle ∧
      ((r = .stepped .halted ∧ t.succeeded) ∨ (r = .stepped (.failed t.cause) ∧ t.failed))

/-! ### Boot, power-on and the host -/

/-- R125: what boot writes, that it touches neither memory nor the channels nor the parameters, and that it is idempotent. -/
def Obligations.BootResetsTheEngine : Prop :=
  ∀ s : State,
    (s.boot.acc = 0 ∧ s.boot.pc = 0 ∧ s.boot.rs = .ready ∧ s.boot.halted = false ∧ s.boot.sr = s.cfg.maxSteps ∧
      s.boot.cause = .none ∧ s.boot.info = 0 ∧ s.boot.stopRequest = false) ∧
    (s.boot.mem = s.mem ∧ s.boot.input = s.input ∧ s.boot.output = s.output ∧ s.boot.cfg = s.cfg) ∧
    react .boot s = .next (.done, s.boot) ∧ s.boot.boot = s.boot

/-- R126: the machine at power-on: every word 0, the engine registers at their boot values, so that booting it changes nothing. -/
def Obligations.PowerOnState : Prop :=
  ∀ c : Config,
    (∀ a, (State.powerOn c).mem.read a = 0) ∧ (State.powerOn c).boot = State.powerOn c ∧
    (State.powerOn c).acc = 0 ∧ (State.powerOn c).pc = 0 ∧ (State.powerOn c).rs = .ready ∧
    (State.powerOn c).sr = c.maxSteps ∧ (State.powerOn c).cause = .none ∧ (State.powerOn c).info = 0 ∧
    (State.powerOn c).stopRequest = false

/-- R44: HostRead. -/
def Obligations.HostReadOperation : Prop :=
  ∀ (s : State) (a : Int), s.runPhase = .idle →
    (0 ≤ a → a < s.cfg.memWords → react (.hostRead a) s = .next (.port (.word (s.mem.read a.toNat)), s)) ∧
    (a < 0 ∨ (s.cfg.memWords : Int) ≤ a → react (.hostRead a) s = .next (.port .addressError, s))

/-- R45: HostWrite, of an integer or of a text, with its three errors in order and its one word. -/
def Obligations.HostWriteOperation : Prop :=
  ∀ (s : State) (a : Int) (v : PortValue), s.runPhase = .idle → Memory.wf s.mem →
    (a < 0 ∨ (s.cfg.memWords : Int) ≤ a → react (.hostWrite a v) s = .next (.port .addressError, s)) ∧
    (0 ≤ a → a < s.cfg.memWords →
      (∀ t, v = .text t → (∀ u, parseWord s.cfg t ≠ .ok u) → react (.hostWrite a v) s = .next (.port .formatError, s)) ∧
      (∀ u, (v = .int u ∨ ∃ t, v = .text t ∧ parseWord s.cfg t = .ok u) →
        (¬ s.cfg.InWord u → react (.hostWrite a v) s = .next (.port .rangeError, s)) ∧
        (s.cfg.InWord u → ∃ m, react (.hostWrite a v) s = .next (.port .ok, { s with mem := m }) ∧
          m.read a.toNat = u ∧ ∀ b, b ≠ a.toNat → m.read b = s.mem.read b)))

/-- R46: HostClear. -/
def Obligations.HostClearOperation : Prop :=
  ∀ s : State, s.runPhase = .idle →
    ∃ m, react .hostClear s = .next (.port .ok, { s with mem := m }) ∧ ∀ a, m.read a = 0

/-- R47: HostLoad under both policies, on well-formed entries (a `Word(v)` with `v` outside word range is none, and what the model
does with it is its own choice, log 12). -/
def Obligations.HostLoadOperation : Prop :=
  ∀ (s : State) (items : List LoadEntry), s.runPhase = .idle → Memory.wf s.mem →
    (∀ v, LoadEntry.word v ∈ items → s.cfg.InWord v) →
    (s.cfg.memWords < items.length → react (.hostLoad items) s = .next (.port .rangeError, s)) ∧
    (items.length ≤ s.cfg.memWords →
      (s.cfg.loadPolicy = .zeroAndContinue ∨ LoadEntry.malformed ∉ items →
        ∃ m, react (.hostLoad items) s = .next (.port .ok, { s with mem := m }) ∧
          (∀ i v, items[i]? = some (.word v) → m.read i = v) ∧
          (∀ i, items[i]? = some .malformed → m.read i = 0) ∧
          ∀ i, items.length ≤ i → m.read i = s.mem.read i) ∧
      (∀ k, s.cfg.loadPolicy = .abort → items[k]? = some .malformed → LoadEntry.malformed ∉ items.take k →
        ∃ m, react (.hostLoad items) s = .next (.port (.formatErrorAt k), { s with mem := m }) ∧
          (∀ i v, i < k → items[i]? = some (.word v) → m.read i = v) ∧
          ∀ i, k ≤ i → m.read i = s.mem.read i))

/-- During an active run the memory port has no transition; with none active it always answers (20_memory.md §5). -/
def Obligations.MemoryPortOnlyBetweenRuns : Prop :=
  ∀ (s : State) (e : Event),
    (∃ a, e = .hostRead a) ∨ (∃ a v, e = .hostWrite a v) ∨ e = .hostClear ∨ (∃ items, e = .hostLoad items) →
    (s.runPhase ≠ .idle → react e s = .refused .brokenHostDuty) ∧
    (s.runPhase = .idle → ∃ (p : PortReply) (m : Memory), react e s = .next (.port p, { s with mem := m }))

/-- The stop request: raising it sets the request and nothing else, as supplying an input only adds it to the model's input list
(log 4); it ends the run at the loop's top and changes no architectural state; raised while the core waits at a READ it takes
effect only after that READ's step (60_exceptions.md §6; the model's names for the waiting points, log 9). -/
def Obligations.StopRequestPausesBetweenSteps : Prop :=
  (∀ s : State, react .stopRequest s = .next (.done, { s with stopRequest := true })) ∧
  (∀ (s : State) (v : Int), react (.input v) s = .next (.done, { s with input := s.input ++ [v] })) ∧
  (∀ s : State, s.runPhase = .loopTop → s.terminal = false → s.stopRequest = true →
    react .proceed s = .next (.paused, { s with runPhase := .idle, stopRequest := false })) ∧
  (∀ (s : State) (v : Int), s.cfg.Valid → s.runPhase = .committed → s.terminal = false → s.waiting = true →
    ∃ s1 s2 t u, react .stopRequest s = .next (.done, s1) ∧ s1 = { s with stopRequest := true } ∧
      react (.input v) s1 = .next (.done, s2) ∧ s2 = { s1 with input := s1.input ++ [v] } ∧
      step s2 = .next t ∧ react .proceed s2 = .next (.stepped (stepOutcome t), u) ∧
      u = { t with runPhase := if t.terminal = true then .idle else .loopTop } ∧
      (t.terminal = false → ∃ w, react .proceed u = .next (.paused, w) ∧
        w = { t with runPhase := .idle, stopRequest := false }))

/-- `single_step` issues exactly one step and returns its outcome (60_exceptions.md §6). -/
def Obligations.SingleStepIsOneStep : Prop :=
  ∀ s t : State, s.runPhase = .idle → s.terminal = false → s.waiting = false → step s = .next t →
    react .singleStep s = .next (.stepped (stepOutcome t), t)

/-- The host's question about a table row, and its answer: when the decoder reads `i` from the bits, the first step after reset
runs `i` (the model's convention for the bits, log 11). -/
def Obligations.PlacedWordRunsFirst : Prop :=
  ∀ (nbits w : Nat) (i : Instr), decodeTableWord nbits w = some i →
    step (State.reset.withFetchWord nbits w) = exec i (State.reset.withFetchWord nbits w) ∧
    (State.reset.withFetchWord nbits w).waiting = false

/-- The rest of the host's control events, each with all that it changes (60_exceptions.md §6): the status view reads and changes
nothing; `run(continue)` boots unless it continues, and enters its loop; one pass of that loop stops at a terminal state, waits at a
READ with no input, or executes one step. The loop's phases, and the answer `waiting` where `run` itself waits, are the model's
(logs 9 and 16). -/
def Obligations.RunLoopPassAndStatus : Prop :=
  (∀ s : State, ∃ v : StatusView, react .status s = .next (.view v, s) ∧ v.acc = s.acc ∧ v.pc = s.pc ∧ v.rs = s.rs ∧
    (v.halted = true ↔ s.rs = .halted) ∧ v.sr = s.sr ∧ v.cause = s.cause ∧ v.info = s.info) ∧
  (∀ s : State, s.runPhase = .idle →
    react (.run true) s = .next (.done, { s with runPhase := .loopTop }) ∧
    react (.run false) s = .next (.done, { s.boot with runPhase := .loopTop })) ∧
  ∀ s : State, s.runPhase ≠ .idle →
    (s.terminal = true → react .proceed s = .next (.stopped s.rs s.cause, { s with runPhase := .idle })) ∧
    (s.terminal = false → (s.runPhase = .committed ∨ s.stopRequest = false) →
      (s.waiting = true → react .proceed s = .next (.waiting, { s with runPhase := .committed })) ∧
      (∀ t, s.waiting = false → step s = .next t →
        react .proceed s = .next (.stepped (stepOutcome t), { t with runPhase := if t.terminal = true then .idle else .loopTop })))
end

