-- ==== Sys2Proof/Laws/Decode.lean ====
section
/-! SUPPORT. The constants derived from `W`, and what the decoder answers. -/

namespace Sys2Proof

namespace Config

theorem opBase_pos (c : Config) : 0 < c.opBase := Nat.pow_pos (by decide)

/-- `T = 10 * OPBASE` (30_encoding.md R60). -/
theorem minInstr_eq (c : Config) (h : 2 ≤ c.wordDigits) : c.minInstr = 10 * c.opBase := by
  unfold minInstr opBase operandDigits
  rw [← Nat.pow_succ', show (c.wordDigits - 2).succ = c.wordDigits - 1 by omega]

/-- `WMAX + 1 = 100 * OPBASE`: an operator has two digits (30_encoding.md R51). -/
theorem wmax_succ_eq (c : Config) (h : 2 ≤ c.wordDigits) : c.wmax + 1 = 100 * c.opBase := by
  have hp : 0 < 10 ^ c.wordDigits := Nat.pow_pos (by decide)
  have he : 10 ^ c.wordDigits = 100 * 10 ^ (c.wordDigits - 2) := by
    rw [show (100 : Nat) = 10 ^ 2 by norm_num, ← Nat.pow_add, show 2 + (c.wordDigits - 2) = c.wordDigits by omega]
  unfold wmax opBase operandDigits
  omega

theorem inWord_zero (c : Config) : c.InWord 0 := ⟨by omega, by omega⟩

end Config

/-- The operator table, read back (30_encoding.md R63). -/
theorem instrOf_eq_some (op a : Nat) (i : Instr) : instrOf op a = some i ↔ i.operator = op ∧ i.operand = a := by
  constructor
  · intro h
    unfold instrOf at h
    split at h <;> cases h <;> exact ⟨rfl, rfl⟩
  · rintro ⟨rfl, rfl⟩
    cases i <;> rfl

theorem Instr.operator_bounds (i : Instr) : 10 ≤ i.operator ∧ i.operator ≤ 43 := by
  cases i <;> simp [Instr.operator]

/-- When the decoder accepts a word (30_encoding.md R67). -/
theorem decode_eq_ok (c : Config) (w : Int) (i : Instr) :
    decode c w = .ok i ↔
      (c.minInstr : Int) ≤ w ∧ instrOf (operatorField c w.toNat) (operandField c w.toNat) = some i := by
  unfold decode
  split_ifs with h1 h2
  · simp; omega
  · simp; omega
  · cases h : instrOf (operatorField c w.toNat) (operandField c w.toNat) with
    | none => simp
    | some j => simp; omega

/-- The operand the decoder gives is below `OPBASE` (30_encoding.md R53). -/
theorem decode_operand_lt (c : Config) (w : Int) (i : Instr) (h : decode c w = .ok i) : i.operand < c.opBase := by
  have h' := (instrOf_eq_some _ _ _).1 ((decode_eq_ok c w i).1 h).2
  rw [h'.2]
  exact Nat.mod_lt _ c.opBase_pos

/-- The operator field is the digit slice of 30_encoding.md R51, on every word of `W` digits. -/
theorem operatorField_eq_dig (c : Config) (w : Nat) (hc : 2 ≤ c.wordDigits) (hw : w ≤ c.wmax) :
    operatorField c w = dig w (c.wordDigits - 1) c.operandDigits := by
  have h := c.wmax_succ_eq hc
  unfold operatorField dig
  rw [show c.wordDigits - 1 - c.operandDigits + 1 = 2 by unfold Config.operandDigits; omega]
  change w / c.opBase = w / c.opBase % 100
  exact (Nat.mod_eq_of_lt (Nat.div_lt_of_lt_mul (by omega))).symm

/-- The operand field is the digit slice of 30_encoding.md R51. -/
theorem operandField_eq_dig (c : Config) (w : Nat) (hc : 3 ≤ c.wordDigits) :
    operandField c w = dig w (c.operandDigits - 1) 0 := by
  unfold operandField dig Config.opBase
  rw [show c.operandDigits - 1 - 0 + 1 = c.operandDigits by unfold Config.operandDigits; omega]
  simp

end Sys2Proof
end

