-- ==== Sys2Proof/Laws/State.lean ====
section
/-! SUPPORT. One lemma per field per update of the state, so that no proof unfolds a record update. -/

namespace Sys2Proof.Machine.State

/-! ### `setAcc` -/

@[simp] theorem setAcc_cfg (s : State) (v : Int) : (s.setAcc v).cfg = s.cfg := rfl
@[simp] theorem setAcc_acc (s : State) (v : Int) : (s.setAcc v).acc = v := rfl
@[simp] theorem setAcc_pc (s : State) (v : Int) : (s.setAcc v).pc = s.pc := rfl
@[simp] theorem setAcc_rs (s : State) (v : Int) : (s.setAcc v).rs = s.rs := rfl
@[simp] theorem setAcc_sr (s : State) (v : Int) : (s.setAcc v).sr = s.sr := rfl
@[simp] theorem setAcc_cause (s : State) (v : Int) : (s.setAcc v).cause = s.cause := rfl
@[simp] theorem setAcc_info (s : State) (v : Int) : (s.setAcc v).info = s.info := rfl
@[simp] theorem setAcc_mem (s : State) (v : Int) : (s.setAcc v).mem = s.mem := rfl
@[simp] theorem setAcc_stopRequest (s : State) (v : Int) : (s.setAcc v).stopRequest = s.stopRequest := rfl
@[simp] theorem setAcc_input (s : State) (v : Int) : (s.setAcc v).input = s.input := rfl
@[simp] theorem setAcc_output (s : State) (v : Int) : (s.setAcc v).output = s.output := rfl
@[simp] theorem setAcc_runPhase (s : State) (v : Int) : (s.setAcc v).runPhase = s.runPhase := rfl

/-! ### `setPc` -/

@[simp] theorem setPc_cfg (s : State) (a : Nat) : (s.setPc a).cfg = s.cfg := rfl
@[simp] theorem setPc_acc (s : State) (a : Nat) : (s.setPc a).acc = s.acc := rfl
@[simp] theorem setPc_pc (s : State) (a : Nat) : (s.setPc a).pc = a := rfl
@[simp] theorem setPc_rs (s : State) (a : Nat) : (s.setPc a).rs = s.rs := rfl
@[simp] theorem setPc_sr (s : State) (a : Nat) : (s.setPc a).sr = s.sr := rfl
@[simp] theorem setPc_cause (s : State) (a : Nat) : (s.setPc a).cause = s.cause := rfl
@[simp] theorem setPc_info (s : State) (a : Nat) : (s.setPc a).info = s.info := rfl
@[simp] theorem setPc_mem (s : State) (a : Nat) : (s.setPc a).mem = s.mem := rfl
@[simp] theorem setPc_stopRequest (s : State) (a : Nat) : (s.setPc a).stopRequest = s.stopRequest := rfl
@[simp] theorem setPc_input (s : State) (a : Nat) : (s.setPc a).input = s.input := rfl
@[simp] theorem setPc_output (s : State) (a : Nat) : (s.setPc a).output = s.output := rfl
@[simp] theorem setPc_runPhase (s : State) (a : Nat) : (s.setPc a).runPhase = s.runPhase := rfl

/-! ### `setWord` -/

@[simp] theorem setWord_cfg (s : State) (a : Nat) (v : Int) : (s.setWord a v).cfg = s.cfg := rfl
@[simp] theorem setWord_acc (s : State) (a : Nat) (v : Int) : (s.setWord a v).acc = s.acc := rfl
@[simp] theorem setWord_pc (s : State) (a : Nat) (v : Int) : (s.setWord a v).pc = s.pc := rfl
@[simp] theorem setWord_rs (s : State) (a : Nat) (v : Int) : (s.setWord a v).rs = s.rs := rfl
@[simp] theorem setWord_sr (s : State) (a : Nat) (v : Int) : (s.setWord a v).sr = s.sr := rfl
@[simp] theorem setWord_cause (s : State) (a : Nat) (v : Int) : (s.setWord a v).cause = s.cause := rfl
@[simp] theorem setWord_info (s : State) (a : Nat) (v : Int) : (s.setWord a v).info = s.info := rfl
@[simp] theorem setWord_mem (s : State) (a : Nat) (v : Int) : (s.setWord a v).mem = s.mem.write a v := rfl
@[simp] theorem setWord_stopRequest (s : State) (a : Nat) (v : Int) : (s.setWord a v).stopRequest = s.stopRequest := rfl
@[simp] theorem setWord_input (s : State) (a : Nat) (v : Int) : (s.setWord a v).input = s.input := rfl
@[simp] theorem setWord_output (s : State) (a : Nat) (v : Int) : (s.setWord a v).output = s.output := rfl
@[simp] theorem setWord_runPhase (s : State) (a : Nat) (v : Int) : (s.setWord a v).runPhase = s.runPhase := rfl

/-! ### `raiseAbort` -/

@[simp] theorem raiseAbort_cfg (s : State) (c : Cause) (i : Int) : (s.raiseAbort c i).cfg = s.cfg := rfl
@[simp] theorem raiseAbort_acc (s : State) (c : Cause) (i : Int) : (s.raiseAbort c i).acc = s.acc := rfl
@[simp] theorem raiseAbort_pc (s : State) (c : Cause) (i : Int) : (s.raiseAbort c i).pc = s.pc := rfl
@[simp] theorem raiseAbort_rs (s : State) (c : Cause) (i : Int) : (s.raiseAbort c i).rs = .aborted := rfl
@[simp] theorem raiseAbort_sr (s : State) (c : Cause) (i : Int) : (s.raiseAbort c i).sr = s.sr := rfl
@[simp] theorem raiseAbort_cause (s : State) (c : Cause) (i : Int) : (s.raiseAbort c i).cause = c := rfl
@[simp] theorem raiseAbort_info (s : State) (c : Cause) (i : Int) : (s.raiseAbort c i).info = i := rfl
@[simp] theorem raiseAbort_mem (s : State) (c : Cause) (i : Int) : (s.raiseAbort c i).mem = s.mem := rfl
@[simp] theorem raiseAbort_stopRequest (s : State) (c : Cause) (i : Int) : (s.raiseAbort c i).stopRequest = s.stopRequest := rfl
@[simp] theorem raiseAbort_input (s : State) (c : Cause) (i : Int) : (s.raiseAbort c i).input = s.input := rfl
@[simp] theorem raiseAbort_output (s : State) (c : Cause) (i : Int) : (s.raiseAbort c i).output = s.output := rfl
@[simp] theorem raiseAbort_runPhase (s : State) (c : Cause) (i : Int) : (s.raiseAbort c i).runPhase = s.runPhase := rfl

/-! ### `signalHalt` -/

@[simp] theorem signalHalt_cfg (s : State) : s.signalHalt.cfg = s.cfg := rfl
@[simp] theorem signalHalt_acc (s : State) : s.signalHalt.acc = s.acc := rfl
@[simp] theorem signalHalt_pc (s : State) : s.signalHalt.pc = s.pc := rfl
@[simp] theorem signalHalt_rs (s : State) : s.signalHalt.rs = .halted := rfl
@[simp] theorem signalHalt_sr (s : State) : s.signalHalt.sr = s.sr := rfl
@[simp] theorem signalHalt_cause (s : State) : s.signalHalt.cause = s.cause := rfl
@[simp] theorem signalHalt_info (s : State) : s.signalHalt.info = s.info := rfl
@[simp] theorem signalHalt_mem (s : State) : s.signalHalt.mem = s.mem := rfl
@[simp] theorem signalHalt_stopRequest (s : State) : s.signalHalt.stopRequest = s.stopRequest := rfl
@[simp] theorem signalHalt_input (s : State) : s.signalHalt.input = s.input := rfl
@[simp] theorem signalHalt_output (s : State) : s.signalHalt.output = s.output := rfl
@[simp] theorem signalHalt_runPhase (s : State) : s.signalHalt.runPhase = s.runPhase := rfl

/-! ### `boot` -/

@[simp] theorem boot_cfg (s : State) : s.boot.cfg = s.cfg := rfl
@[simp] theorem boot_acc (s : State) : s.boot.acc = 0 := rfl
@[simp] theorem boot_pc (s : State) : s.boot.pc = 0 := rfl
@[simp] theorem boot_rs (s : State) : s.boot.rs = .ready := rfl
@[simp] theorem boot_sr (s : State) : s.boot.sr = s.cfg.maxSteps := rfl
@[simp] theorem boot_cause (s : State) : s.boot.cause = .none := rfl
@[simp] theorem boot_info (s : State) : s.boot.info = 0 := rfl
@[simp] theorem boot_mem (s : State) : s.boot.mem = s.mem := rfl
@[simp] theorem boot_stopRequest (s : State) : s.boot.stopRequest = false := rfl
@[simp] theorem boot_input (s : State) : s.boot.input = s.input := rfl
@[simp] theorem boot_output (s : State) : s.boot.output = s.output := rfl
@[simp] theorem boot_runPhase (s : State) : s.boot.runPhase = s.runPhase := rfl

/-! ### `start` -/

@[simp] theorem start_cfg (s : State) : s.start.cfg = s.cfg := rfl
@[simp] theorem start_acc (s : State) : s.start.acc = s.acc := rfl
@[simp] theorem start_pc (s : State) : s.start.pc = s.pc := rfl
@[simp] theorem start_rs (s : State) : s.start.rs = if s.rs = .ready then .running else s.rs := rfl
@[simp] theorem start_sr (s : State) : s.start.sr = s.sr := rfl
@[simp] theorem start_cause (s : State) : s.start.cause = s.cause := rfl
@[simp] theorem start_info (s : State) : s.start.info = s.info := rfl
@[simp] theorem start_mem (s : State) : s.start.mem = s.mem := rfl
@[simp] theorem start_stopRequest (s : State) : s.start.stopRequest = s.stopRequest := rfl
@[simp] theorem start_input (s : State) : s.start.input = s.input := rfl
@[simp] theorem start_output (s : State) : s.start.output = s.output := rfl
@[simp] theorem start_runPhase (s : State) : s.start.runPhase = s.runPhase := rfl

/-! ### `advance` -/

@[simp] theorem advance_cfg (s : State) : s.advance.cfg = s.cfg := rfl
@[simp] theorem advance_acc (s : State) : s.advance.acc = s.acc := rfl
@[simp] theorem advance_pc (s : State) : s.advance.pc = s.pc + 1 := rfl
@[simp] theorem advance_rs (s : State) : s.advance.rs = s.rs := rfl
@[simp] theorem advance_sr (s : State) : s.advance.sr = s.sr := rfl
@[simp] theorem advance_cause (s : State) : s.advance.cause = s.cause := rfl
@[simp] theorem advance_info (s : State) : s.advance.info = s.info := rfl
@[simp] theorem advance_mem (s : State) : s.advance.mem = s.mem := rfl
@[simp] theorem advance_stopRequest (s : State) : s.advance.stopRequest = s.stopRequest := rfl
@[simp] theorem advance_input (s : State) : s.advance.input = s.input := rfl
@[simp] theorem advance_output (s : State) : s.advance.output = s.output := rfl
@[simp] theorem advance_runPhase (s : State) : s.advance.runPhase = s.runPhase := rfl

/-! ### `outWrite` -/

@[simp] theorem outWrite_cfg (s : State) (v : Int) : (outWrite v s).cfg = s.cfg := rfl
@[simp] theorem outWrite_acc (s : State) (v : Int) : (outWrite v s).acc = s.acc := rfl
@[simp] theorem outWrite_pc (s : State) (v : Int) : (outWrite v s).pc = s.pc := rfl
@[simp] theorem outWrite_rs (s : State) (v : Int) : (outWrite v s).rs = s.rs := rfl
@[simp] theorem outWrite_sr (s : State) (v : Int) : (outWrite v s).sr = s.sr := rfl
@[simp] theorem outWrite_cause (s : State) (v : Int) : (outWrite v s).cause = s.cause := rfl
@[simp] theorem outWrite_info (s : State) (v : Int) : (outWrite v s).info = s.info := rfl
@[simp] theorem outWrite_mem (s : State) (v : Int) : (outWrite v s).mem = s.mem := rfl
@[simp] theorem outWrite_stopRequest (s : State) (v : Int) : (outWrite v s).stopRequest = s.stopRequest := rfl
@[simp] theorem outWrite_input (s : State) (v : Int) : (outWrite v s).input = s.input := rfl
@[simp] theorem outWrite_output (s : State) (v : Int) : (outWrite v s).output = s.output ++ [v] := rfl
@[simp] theorem outWrite_runPhase (s : State) (v : Int) : (outWrite v s).runPhase = s.runPhase := rfl

/-! ### `count` -/

@[simp] theorem count_cfg (s : State) : s.count.cfg = s.cfg := by
  unfold count; split <;> rfl
@[simp] theorem count_acc (s : State) : s.count.acc = s.acc := by
  unfold count; split <;> rfl
@[simp] theorem count_pc (s : State) : s.count.pc = s.pc := by
  unfold count; split <;> rfl
@[simp] theorem count_rs (s : State) : s.count.rs = if s.sr - 1 = 0 then .aborted else s.rs := by
  unfold count; split <;> rfl
@[simp] theorem count_sr (s : State) : s.count.sr = s.sr - 1 := by
  unfold count; split <;> rfl
@[simp] theorem count_cause (s : State) : s.count.cause = if s.sr - 1 = 0 then .stepBudgetExceeded else s.cause := by
  unfold count; split <;> rfl
@[simp] theorem count_info (s : State) : s.count.info = if s.sr - 1 = 0 then 0 else s.info := by
  unfold count; split <;> rfl
@[simp] theorem count_mem (s : State) : s.count.mem = s.mem := by
  unfold count; split <;> rfl
@[simp] theorem count_stopRequest (s : State) : s.count.stopRequest = s.stopRequest := by
  unfold count; split <;> rfl
@[simp] theorem count_input (s : State) : s.count.input = s.input := by
  unfold count; split <;> rfl
@[simp] theorem count_output (s : State) : s.count.output = s.output := by
  unfold count; split <;> rfl
@[simp] theorem count_runPhase (s : State) : s.count.runPhase = s.runPhase := by
  unfold count; split <;> rfl

end Sys2Proof.Machine.State
end

