-- ==== Sys2Proof/Laws/Memory.lean ====
section
/-! SUPPORT. The basic laws of memory: read after write, and that every memory operation keeps the canonical form. -/

namespace Sys2Proof.Machine

/-! ### Reading -/

@[simp] theorem Memory.read_nil (a : Nat) : Memory.read [] a = 0 := rfl

@[simp] theorem Memory.read_cons (p : Nat × Int) (m : Memory) (a : Nat) :
    Memory.read (p :: m) a = if p.1 = a then p.2 else Memory.read m a := rfl

theorem Memory.read_eq_zero_of_not_listed (m : Memory) (a : Nat) (h : ∀ p ∈ m, p.1 ≠ a) : m.read a = 0 := by
  induction m with
  | nil => rfl
  | cons p rest ih =>
    have hp := h p (by simp)
    simp only [read_cons, if_neg hp]
    exact ih fun q hq => h q (by simp [hq])

/-- A listed word, or the power-on zero. -/
theorem Memory.read_mem_or_zero (m : Memory) (a : Nat) : (a, m.read a) ∈ m ∨ m.read a = 0 := by
  induction m with
  | nil => exact .inr rfl
  | cons p rest ih =>
    by_cases hp : p.1 = a
    · left; subst hp; simp
    · rcases ih with h | h
      · left; simp [hp, h]
      · right; simp [hp, h]

/-! ### Writing -/

@[simp] theorem Memory.write_nil (a : Nat) (v : Int) :
    Memory.write [] a v = if v = 0 then [] else [(a, v)] := rfl

theorem Memory.write_cons (p : Nat × Int) (m : Memory) (a : Nat) (v : Int) :
    Memory.write (p :: m) a v =
      if p.1 < a then p :: Memory.write m a v
      else if p.1 = a then (if v = 0 then m else (a, v) :: m)
      else if v = 0 then p :: m
      else (a, v) :: p :: m := rfl

/-- An entry of a written memory is an old entry or the new word. -/
theorem Memory.of_mem_write {m : Memory} {a : Nat} {v : Int} {q : Nat × Int} (h : q ∈ m.write a v) :
    q ∈ m ∨ (q = (a, v) ∧ v ≠ 0) := by
  induction m with
  | nil =>
    rw [write_nil] at h
    split at h
    · simp at h
    · rename_i hv; right; exact ⟨by simpa using h, hv⟩
  | cons p rest ih =>
    rw [write_cons] at h
    split_ifs at h with h1 h2 h3 h4
    · rcases List.mem_cons.1 h with h | h
      · exact .inl (by simp [h])
      · exact (ih h).imp (fun h => by simp [h]) id
    · exact .inl (by simp [h])
    · rcases List.mem_cons.1 h with h | h
      · exact .inr ⟨h, h3⟩
      · exact .inl (by simp [h])
    · exact .inl h
    · rcases List.mem_cons.1 h with h | h
      · exact .inr ⟨h, h4⟩
      · exact .inl h

/-- A write leaves every other address alone (20_memory.md R38 item 4). -/
theorem Memory.read_write_other (m : Memory) (a b : Nat) (v : Int) (h : b ≠ a) :
    (m.write a v).read b = m.read b := by
  induction m with
  | nil => rw [write_nil]; split <;> simp [h.symm]
  | cons p rest ih =>
    rw [write_cons]
    split_ifs with h1 h2 h3 h4
    · simp [ih]
    · subst h2; simp [h.symm]
    · subst h2; simp [h.symm]
    · rfl
    · simp [h.symm]

/-- A read after a write to the same address gives the value written, in a canonical memory. -/
theorem Memory.read_write_same (m : Memory) (a : Nat) (v : Int) (hm : Memory.wf m) :
    (m.write a v).read a = v := by
  induction m with
  | nil =>
    rw [write_nil]
    split_ifs with hv
    · simp [hv]
    · simp
  | cons p rest ih =>
    obtain ⟨hs, hz⟩ := hm
    obtain ⟨hp, hs'⟩ := List.pairwise_cons.1 hs
    have gone : ∀ q : Nat, q ≤ p.1 → Memory.read rest q = 0 := fun q hq =>
      read_eq_zero_of_not_listed _ _ fun r hr => by have := hp r hr; omega
    rw [write_cons]
    split_ifs with h1 h2 h3 h4
    · simp only [read_cons, if_neg (Nat.ne_of_lt h1)]
      exact ih ⟨hs', fun q hq => hz q (by simp [hq])⟩
    · rw [gone a (by omega), h3]
    · simp
    · rw [read_cons, if_neg h2, gone a (by omega), h4]
    · simp

/-- A write keeps the canonical form. -/
theorem Memory.write_wf (m : Memory) (a : Nat) (v : Int) (hm : Memory.wf m) : Memory.wf (m.write a v) := by
  induction m with
  | nil =>
    rw [write_nil]
    split_ifs with hv
    · exact hm
    · exact ⟨by simp, by simpa using hv⟩
  | cons p rest ih =>
    obtain ⟨hs, hz⟩ := hm
    obtain ⟨hp, hs'⟩ := List.pairwise_cons.1 hs
    have hr : Memory.wf rest := ⟨hs', fun q hq => hz q (by simp [hq])⟩
    have hp0 : p.2 ≠ 0 := hz p (by simp)
    rw [write_cons]
    split_ifs with h1 h2 h3 h4
    · refine ⟨List.pairwise_cons.2 ⟨fun q hq => ?_, (ih hr).1⟩, fun q hq => ?_⟩
      · rcases of_mem_write hq with hq | ⟨rfl, -⟩
        · exact hp q hq
        · exact h1
      · rcases List.mem_cons.1 hq with rfl | hq
        · exact hp0
        · exact (ih hr).2 q hq
    · exact hr
    · refine ⟨List.pairwise_cons.2 ⟨fun q hq => h2 ▸ hp q hq, hs'⟩, fun q hq => ?_⟩
      rcases List.mem_cons.1 hq with rfl | hq
      · exact h3
      · exact hr.2 q hq
    · exact ⟨hs, hz⟩
    · refine ⟨List.pairwise_cons.2 ⟨fun q hq => ?_, hs⟩, fun q hq => ?_⟩
      · rcases List.mem_cons.1 hq with rfl | hq
        · change a < q.1; omega
        · have := hp q hq; change a < q.1; omega
      · rcases List.mem_cons.1 hq with rfl | hq
        · exact h4
        · exact hz q hq

/-! ### The operations over memory -/

theorem Memory.wf_nil : Memory.wf [] := ⟨List.Pairwise.nil, by simp⟩

theorem State.setWord_mem_wf (s : State) (a : Nat) (v : Int) (h : Memory.wf s.mem) : Memory.wf (s.setWord a v).mem :=
  Memory.write_wf _ _ _ h

/-- The checked write: it replaces one word, or it aborts with nothing written. -/
theorem memWrite_cases (k : Cause) (a : Nat) (v : Int) (s : State) :
    (a < s.cfg.memWords ∧ s.cfg.InWord v ∧ memWrite k a v s = .ok (s.setWord a v)) ∨
    (a < s.cfg.memWords ∧ ¬ s.cfg.InWord v ∧ memWrite k a v s = .error (s.raiseAbort .rangeError v)) ∨
    (s.cfg.memWords ≤ a ∧ memWrite k a v s = .error (s.raiseAbort k a)) := by
  unfold memWrite
  split_ifs with h1 h2
  · exact .inl ⟨h1, h2, rfl⟩
  · exact .inr (.inl ⟨h1, h2, rfl⟩)
  · exact .inr (.inr ⟨by omega, rfl⟩)

/-- The checked read: the word, or an abort. -/
theorem memRead_cases (k : Cause) (a : Nat) (s : State) :
    (a < s.cfg.memWords ∧ memRead k a s = .ok (s.mem.read a)) ∨
    (s.cfg.memWords ≤ a ∧ memRead k a s = .error (s.raiseAbort k a)) := by
  unfold memRead
  split_ifs with h
  · exact .inl ⟨h, rfl⟩
  · exact .inr ⟨by omega, rfl⟩

theorem memWrite_ok_mem_wf {k : Cause} {a : Nat} {v : Int} {s t : State} (h : memWrite k a v s = .ok t)
    (hs : Memory.wf s.mem) : Memory.wf t.mem := by
  rcases memWrite_cases k a v s with ⟨-, -, e⟩ | ⟨-, -, e⟩ | ⟨-, e⟩ <;> rw [e] at h <;> cases h
  exact State.setWord_mem_wf _ _ _ hs

/-- The host's write of an integer: one word replaced, or nothing (20_memory.md R45). -/
theorem hostWriteInt_cases (a : Nat) (v : Int) (s : State) :
    (s.cfg.InWord v ∧ hostWriteInt a v s = (.ok, s.setWord a v)) ∨
    (¬ s.cfg.InWord v ∧ hostWriteInt a v s = (.rangeError, s)) := by
  unfold hostWriteInt
  split_ifs with h
  · exact .inl ⟨h, rfl⟩
  · exact .inr ⟨h, rfl⟩

/-- What the host's write can leave: the state as it was, or one word in word range replaced inside memory. -/
theorem hostWrite_state_cases (a : Int) (v : PortValue) (s : State) :
    (hostWrite a v s).2 = s ∨
    ∃ w, s.hostAddress a ∧ s.cfg.InWord w ∧ hostWrite a v s = (.ok, s.setWord a.toNat w) := by
  unfold hostWrite
  split_ifs with h
  · cases v with
    | int w =>
      rcases hostWriteInt_cases a.toNat w s with ⟨hw, e⟩ | ⟨-, e⟩
      · exact .inr ⟨w, h, hw, e⟩
      · exact .inl (by simp [e])
    | text t =>
      cases ht : parseWord s.cfg t with
      | error e => exact .inl (by simp [ht])
      | ok w =>
        rcases hostWriteInt_cases a.toNat w s with ⟨hw, e⟩ | ⟨-, e⟩
        · exact .inr ⟨w, h, hw, by simp [ht, e]⟩
        · exact .inl (by simp [ht, e])
  · exact .inl rfl

theorem hostWrite_mem_wf (a : Int) (v : PortValue) (s : State) (h : Memory.wf s.mem) :
    Memory.wf (hostWrite a v s).2.mem := by
  rcases hostWrite_state_cases a v s with e | ⟨w, -, -, e⟩
  · rwa [e]
  · rw [e]; exact State.setWord_mem_wf _ _ _ h

theorem hostClear_mem_wf (s : State) : Memory.wf (hostClear s).2.mem := Memory.wf_nil

/-- The load changes nothing but memory, and keeps whatever the single writes it may make keep. -/
theorem loadFrom_keeps (P : State → Prop)
    (hP : ∀ (t : State) (a : Nat) (v : Int), P t → a < t.cfg.memWords → t.cfg.InWord v → P (t.setWord a v))
    (items : List LoadEntry) (i : Nat) (s : State) (hi : i + items.length ≤ s.cfg.memWords) (h : P s) :
    P (loadFrom i items s).2 := by
  induction items generalizing i s with
  | nil => exact h
  | cons e rest ih =>
    have hi' : i + 1 + rest.length ≤ s.cfg.memWords := by simp at hi; omega
    have hlt : i < s.cfg.memWords := by simp at hi; omega
    unfold loadFrom
    split
    · rename_i v hv
      have hw : s.cfg.InWord v := by
        cases e with
        | word u =>
          simp only [LoadEntry.value] at hv
          split at hv
          · cases hv; assumption
          · cases hv
        | malformed => cases hv
      exact ih (i + 1) _ hi' (hP _ _ _ h hlt hw)
    · split
      · exact ih (i + 1) _ hi' (hP _ _ _ h hlt (by simp [Config.InWord]))
      · exact h

theorem hostLoad_keeps (P : State → Prop)
    (hP : ∀ (t : State) (a : Nat) (v : Int), P t → a < t.cfg.memWords → t.cfg.InWord v → P (t.setWord a v))
    (items : List LoadEntry) (s : State) (h : P s) : P (hostLoad items s).2 := by
  unfold hostLoad
  split_ifs with hl
  · exact h
  · exact loadFrom_keeps P hP items 0 s (by omega) h

theorem hostLoad_mem_wf (items : List LoadEntry) (s : State) (h : Memory.wf s.mem) :
    Memory.wf (hostLoad items s).2.mem :=
  hostLoad_keeps (fun t => Memory.wf t.mem) (fun _ _ _ ht _ _ => State.setWord_mem_wf _ _ _ ht) items s h

theorem powerOn_mem_wf (c : Config) : Memory.wf (State.powerOn c).mem := Memory.wf_nil

theorem reset_mem_wf : Memory.wf State.reset.mem := Memory.wf_nil

end Sys2Proof.Machine
end

