-- ==== Sys2Proof/Laws/Ops.lean ====
section
/-! SUPPORT. One lemma per shared operation that says everything it can do, so that no later proof unfolds it. -/

namespace Sys2Proof.Machine

/-! ### Run state -/

theorem State.terminal_eq_false (s : State) : s.terminal = false ↔ s.rs = .ready ∨ s.rs = .running := by
  unfold State.terminal; cases s.rs <;> decide

theorem State.terminal_eq_true (s : State) : s.terminal = true ↔ s.rs = .halted ∨ s.rs = .aborted := by
  unfold State.terminal; cases s.rs <;> decide

@[simp] theorem State.halted_eq_true (s : State) : s.halted = true ↔ s.rs = .halted := by
  unfold State.halted; cases s.rs <;> decide

@[simp] theorem State.halted_eq_false (s : State) : s.halted = false ↔ s.rs ≠ .halted := by
  unfold State.halted; cases s.rs <;> decide

/-! ### Channels and fetch -/

theorem inRead_cases (s : State) :
    (s.input = [] ∧ inRead s = none) ∨ ∃ v rest, s.input = v :: rest ∧ inRead s = some (v, { s with input := rest }) := by
  unfold inRead
  cases h : s.input with
  | nil => exact .inl ⟨rfl, rfl⟩
  | cons v rest => exact .inr ⟨v, rest, rfl, rfl⟩

theorem fetch_cases (s : State) :
    (s.pc < s.cfg.memWords ∧ fetch s = .ok (s.mem.read s.pc)) ∨
    (s.cfg.memWords ≤ s.pc ∧ fetch s = .error (s.raiseAbort .addressErrorFetch s.pc)) :=
  memRead_cases _ _ _

/-! ### The phases of a step -/

/-- The state in which a handler starts, when the step is enabled (40_cycle.md R73, R75). -/
theorem State.start_advance (s : State) (h : s.terminal = false) :
    s.start.advance = { s with rs := .running, pc := s.pc + 1 } := by
  unfold State.start State.advance State.setPc
  rcases (State.terminal_eq_false s).1 h with e | e <;> simp [e]

/-- The count of a running core with budget left is the claims' `counted` (40_cycle.md R79). -/
theorem State.count_eq_counted (u : State) (hr : u.rs = .running) (hs : 1 ≤ u.sr) : u.count = u.counted := by
  unfold State.count State.counted State.raiseAbort
  by_cases h : u.sr = 1
  · simp [h]
  · have h' : u.sr - 1 ≠ 0 := by omega
    simp [h, h', ← hr]

theorem State.counted_cases (u : State) :
    (u.sr = 1 ∧ u.counted = { u with rs := .aborted, sr := 0, cause := .stepBudgetExceeded, info := 0 }) ∨
    (u.sr ≠ 1 ∧ u.counted = { u with rs := .running, sr := u.sr - 1 }) := by
  unfold State.counted
  split_ifs with h
  · exact .inl ⟨h, rfl⟩
  · exact .inr ⟨h, rfl⟩

/-! ### Operand forms -/

/-- Reading the operand: the handler goes on with the word, or aborts (30_encoding.md R53, 60_exceptions.md R101). -/
theorem withOperand_cases (a : Nat) (k : Int → Handled) (s : State) :
    (a < s.cfg.memWords ∧ withOperand a k s = k (s.mem.read a)) ∨
    (s.cfg.memWords ≤ a ∧ withOperand a k s = .aborted (s.raiseAbort .addressErrorOperand a)) := by
  unfold withOperand operandRead
  rcases memRead_cases .addressErrorOperand a s with ⟨h, e⟩ | ⟨h, e⟩
  · exact .inl ⟨h, by simp [e]⟩
  · exact .inr ⟨h, by simp [e]⟩

/-- Writing the operand: one word replaced, or the range abort, or the address abort, in the priority of
60_exceptions.md R104 item 5. -/
theorem storeOperand_cases (a : Nat) (v : Int) (s : State) :
    (a < s.cfg.memWords ∧ s.cfg.InWord v ∧ storeOperand a v s = .completed (s.setWord a v)) ∨
    (a < s.cfg.memWords ∧ ¬ s.cfg.InWord v ∧ storeOperand a v s = .aborted (s.raiseAbort .rangeError v)) ∨
    (s.cfg.memWords ≤ a ∧ storeOperand a v s = .aborted (s.raiseAbort .addressErrorOperand a)) := by
  unfold storeOperand operandWrite
  rcases memWrite_cases .addressErrorOperand a v s with ⟨h, h', e⟩ | ⟨h, h', e⟩ | ⟨h, e⟩
  · exact .inl ⟨h, h', by simp [e]⟩
  · exact .inr (.inl ⟨h, h', by simp [e]⟩)
  · exact .inr (.inr ⟨h, by simp [e]⟩)

theorem branchIf_eq (c : Bool) (a : Nat) (s : State) :
    branchIf c a s = .completed (if c then s.setPc a else s) := rfl

/-! ### Outcome -/

@[simp] theorem settle_completed (s : State) : settle (.completed s) = s.count := rfl
@[simp] theorem settle_halted (s : State) : settle (.halted s) = s := rfl
@[simp] theorem settle_aborted (s : State) : settle (.aborted s) = s := rfl

theorem runHandler_eq (h : State → Handled) (s : State) : runHandler h s = settle (h s.start.advance) := rfl

end Sys2Proof.Machine
end

