-- ==== Sys2Proof/Laws/Cycle.lean ====
section
/-! SUPPORT. What a step can do, said once: every claim about `step` is meant to start from `step_cases`. -/

namespace Sys2Proof.Machine

theorem nextInstr_eq_some (s : State) (i : Instr) :
    nextInstr s = some i ↔ s.pc < s.cfg.memWords ∧ decode s.cfg (s.mem.read s.pc) = .ok i := by
  unfold nextInstr
  rcases fetch_cases s with ⟨h, e⟩ | ⟨h, e⟩
  · rw [e]
    cases hd : decode s.cfg (s.mem.read s.pc) with
    | error x => simp [hd]
    | ok j => simp [hd, h]
  · rw [e]; simp; omega

/-- The core waits exactly when a READ stands at `PC` and no input is ready (41_io.md R85). -/
theorem State.waiting_iff (s : State) : s.waiting = true ↔ (∃ a, nextInstr s = some (.read a)) ∧ s.input = [] := by
  unfold State.waiting
  cases h : nextInstr s with
  | none => simp
  | some i => cases i <;> simp

/-- Outside the terminal states a step is enabled exactly when no READ waits (40_cycle.md R71). -/
theorem State.stepEnabled_eq {s : State} (h : s.terminal = false) : s.stepEnabled = !s.waiting := by
  simp [State.stepEnabled, h]

/-- In a terminal state no step is enabled (40_cycle.md R71). -/
theorem State.stepEnabled_eq_false {s : State} (h : s.terminal = true) : s.stepEnabled = false := by
  simp [State.stepEnabled, h]

/-- Everything a step can do (40_cycle.md R80). -/
theorem step_cases {s t : State} (h : step s = .next t) :
    s.cfg.Valid ∧
    ((s.terminal = true ∧ t = s) ∨
     (s.terminal = false ∧ s.cfg.memWords ≤ s.pc ∧ t = s.raiseAbort .addressErrorFetch s.pc) ∨
     (s.terminal = false ∧ s.pc < s.cfg.memWords ∧ ∃ e, decode s.cfg (s.mem.read s.pc) = .error e ∧
        t = s.start.advance.raiseAbort (decodeCause e) (s.mem.read s.pc)) ∨
     (s.terminal = false ∧ ∃ i, nextInstr s = some i ∧ exec i s = .next t)) := by
  unfold step cycle at h
  split_ifs at h with hv ht
  · exact ⟨hv, .inl ⟨ht, by cases h; rfl⟩⟩
  · have ht' : s.terminal = false := by simpa using ht
    refine ⟨hv, .inr ?_⟩
    rcases fetch_cases s with ⟨hp, e⟩ | ⟨hp, e⟩
    · rw [e] at h
      cases hd : decode s.cfg (s.mem.read s.pc) with
      | error x =>
        simp only [hd] at h
        exact .inr (.inl ⟨ht', hp, x, rfl, by cases h; rfl⟩)
      | ok i =>
        simp only [hd] at h
        exact .inr (.inr ⟨ht', i, (nextInstr_eq_some s i).2 ⟨hp, hd⟩, h⟩)
    · rw [e] at h
      exact .inl ⟨ht', hp, by cases h; rfl⟩

end Sys2Proof.Machine
end

