-- ==== Sys2Proof/Laws/Exec.lean ====
section
/-! SUPPORT. What an instruction can do, said once (`exec_cases`): wait, abort before any write, halt, or complete with its own effect
and be counted. Claims over all instructions are meant to start from here. -/

namespace Sys2Proof.Machine

/-- The state `u` is the state `s` with the instruction's own effect (41_io.md to 44_control.md), before the count and with `RS` as it was. -/
def Effect (i : Instr) (s u : State) : Prop :=
  match i with
  | .read a => ∃ v rest, s.input = v :: rest ∧ a < s.cfg.memWords ∧ s.cfg.InWord v ∧
      u = { s with pc := s.pc + 1, input := rest, mem := s.mem.write a v }
  | .write a => a < s.cfg.memWords ∧ u = { s with pc := s.pc + 1, output := s.output ++ [s.mem.read a] }
  | .load a => a < s.cfg.memWords ∧ u = { s with pc := s.pc + 1, acc := s.mem.read a }
  | .store a => a < s.cfg.memWords ∧ s.cfg.InWord s.acc ∧ u = { s with pc := s.pc + 1, mem := s.mem.write a s.acc }
  | .add a => a < s.cfg.memWords ∧ u = { s with pc := s.pc + 1, acc := s.acc + s.mem.read a }
  | .subtract a => a < s.cfg.memWords ∧ u = { s with pc := s.pc + 1, acc := s.acc - s.mem.read a }
  | .divide a => a < s.cfg.memWords ∧ s.mem.read a ≠ 0 ∧
      u = { s with pc := s.pc + 1, acc := quotient s.cfg.divMode s.acc (s.mem.read a) }
  | .multiply a => a < s.cfg.memWords ∧ u = { s with pc := s.pc + 1, acc := s.acc * s.mem.read a }
  | .branch a => u = { s with pc := a }
  | .branchneg a => u = { s with pc := if s.accNegative then a else s.pc + 1 }
  | .branchzero a => u = { s with pc := if s.accZero then a else s.pc + 1 }
  | .halt _ => False

/-- An execute-phase abort: nothing is written but `PC` and the abort registers, and a READ has consumed its input
(40_cycle.md R81, 41_io.md R85). -/
def ExecAbort (i : Instr) (s t : State) : Prop :=
  ∃ c ∈ [Cause.addressErrorOperand, .divideByZero, .rangeError], ∃ (x : Int) (inp : List Int),
    t = { s with pc := s.pc + 1, rs := .aborted, cause := c, info := x, input := inp } ∧
    (inp = s.input ∨ ∃ (a : Nat) (v : Int), i = .read a ∧ s.input = v :: inp)

/-- A handler that reads its operand, from the state in which `PC` is the instruction's address. -/
theorem runHandler_withOperand {s : State} (ht : s.terminal = false) (a : Nat) (f : Int → State → Handled) :
    (a < s.cfg.memWords ∧ runHandler (fun t => withOperand a (fun m => f m t) t) s =
      settle (f (s.mem.read a) { s with rs := .running, pc := s.pc + 1 })) ∨
    (s.cfg.memWords ≤ a ∧ runHandler (fun t => withOperand a (fun m => f m t) t) s =
      { s with pc := s.pc + 1, rs := .aborted, cause := .addressErrorOperand, info := a }) := by
  rw [runHandler_eq, State.start_advance s ht]
  rcases withOperand_cases a (fun m => f m { s with rs := .running, pc := s.pc + 1 })
    { s with rs := .running, pc := s.pc + 1 } with ⟨h, e⟩ | ⟨h, e⟩
  · exact .inl ⟨h, by simp only [e]⟩
  · exact .inr ⟨h, by simp only [e]; rfl⟩

/-- A handler that writes its operand, from the state in which `PC` is the instruction's address. -/
theorem runHandler_storeOperand {s : State} (ht : s.terminal = false) (a : Nat) (f : State → Int) (v : Int)
    (hv : f { s with rs := .running, pc := s.pc + 1 } = v) :
    (a < s.cfg.memWords ∧ s.cfg.InWord v ∧ runHandler (fun t => storeOperand a (f t) t) s =
      State.count { s with rs := .running, pc := s.pc + 1, mem := s.mem.write a v }) ∨
    (a < s.cfg.memWords ∧ ¬ s.cfg.InWord v ∧ runHandler (fun t => storeOperand a (f t) t) s =
      { s with pc := s.pc + 1, rs := .aborted, cause := .rangeError, info := v }) ∨
    (s.cfg.memWords ≤ a ∧ runHandler (fun t => storeOperand a (f t) t) s =
      { s with pc := s.pc + 1, rs := .aborted, cause := .addressErrorOperand, info := a }) := by
  rw [runHandler_eq, State.start_advance s ht]
  simp only [hv]
  rcases storeOperand_cases a v { s with rs := .running, pc := s.pc + 1 } with ⟨h, h', e⟩ | ⟨h, h', e⟩ | ⟨h, e⟩
  · exact .inl ⟨h, h', by rw [e]; rfl⟩
  · exact .inr (.inl ⟨h, h', by rw [e]; rfl⟩)
  · exact .inr (.inr ⟨h, by rw [e]; rfl⟩)

/-- A handler that branches, from the state in which `PC` is the instruction's address. -/
theorem runHandler_branchIf {s : State} (ht : s.terminal = false) (a : Nat) (f : State → Bool) (b : Bool)
    (hb : f { s with rs := .running, pc := s.pc + 1 } = b) :
    runHandler (fun t => branchIf (f t) a t) s =
      State.count { s with rs := .running, pc := if b then a else s.pc + 1 } := by
  rw [runHandler_eq, State.start_advance s ht, hb, branchIf_eq]
  cases b <;> rfl

/-- Everything an instruction can do in a state in which a step is enabled. -/
theorem exec_cases {i : Instr} {s t : State} (ht : s.terminal = false) (h : exec i s = .next t) :
    (∃ a, i = .read a ∧ s.input = [] ∧ t = s) ∨
    ExecAbort i s t ∨
    (∃ a, i = .halt a ∧ t = { s with pc := s.pc + 1, rs := .halted }) ∨
    (∃ u, Effect i s u ∧ t = State.count { u with rs := .running }) := by
  have loaded : ∀ (a : Nat) (f : Int → State → State),
      runHandler (fun t => withOperand a (fun m => .completed (f m t)) t) s = t →
      (a < s.cfg.memWords ∧ t = (f (s.mem.read a) { s with rs := .running, pc := s.pc + 1 }).count) ∨
      ExecAbort i s t := by
    rintro a f rfl
    rcases runHandler_withOperand ht a (fun m t => .completed (f m t)) with ⟨h, e⟩ | ⟨h, e⟩
    · exact .inl ⟨h, e⟩
    · exact .inr ⟨_, by simp, _, _, e, .inl rfl⟩
  cases i with
  | read a =>
    replace h : execRead a s = .next t := h
    unfold execRead at h
    rcases inRead_cases s with ⟨hi, e⟩ | ⟨v, rest, hi, e⟩
    · rw [e] at h; cases h; exact .inl ⟨a, rfl, hi, rfl⟩
    · rw [e] at h
      rcases runHandler_storeOperand (s := { s with input := rest }) ht a (fun _ => v) v rfl with
        ⟨h1, h2, e⟩ | ⟨h1, h2, e⟩ | ⟨h1, e⟩ <;> simp only [e] at h <;> cases h
      · exact .inr (.inr (.inr ⟨_, ⟨v, rest, hi, h1, h2, rfl⟩, rfl⟩))
      · exact .inr (.inl ⟨_, by simp, _, rest, rfl, .inr ⟨a, v, rfl, hi⟩⟩)
      · exact .inr (.inl ⟨_, by simp, _, rest, rfl, .inr ⟨a, v, rfl, hi⟩⟩)
  | write a =>
    rcases loaded a outWrite (by cases h; rfl) with ⟨h1, e⟩ | h1
    · exact .inr (.inr (.inr ⟨_, ⟨h1, rfl⟩, e⟩))
    · exact .inr (.inl h1)
  | load a =>
    rcases loaded a (fun m t => t.setAcc m) (by cases h; rfl) with ⟨h1, e⟩ | h1
    · exact .inr (.inr (.inr ⟨_, ⟨h1, rfl⟩, e⟩))
    · exact .inr (.inl h1)
  | store a =>
    rcases runHandler_storeOperand ht a (fun t => t.acc) s.acc rfl with ⟨h1, h2, e⟩ | ⟨h1, h2, e⟩ | ⟨h1, e⟩ <;>
      replace h := (Host.Outcome.next.inj h).symm.trans e
    · exact .inr (.inr (.inr ⟨_, ⟨h1, h2, rfl⟩, h⟩))
    · exact .inr (.inl ⟨_, by simp, _, _, h, .inl rfl⟩)
    · exact .inr (.inl ⟨_, by simp, _, _, h, .inl rfl⟩)
  | add a =>
    rcases loaded a (fun m t => t.setAcc (t.acc + m)) (by cases h; rfl) with ⟨h1, e⟩ | h1
    · exact .inr (.inr (.inr ⟨_, ⟨h1, rfl⟩, e⟩))
    · exact .inr (.inl h1)
  | subtract a =>
    rcases loaded a (fun m t => t.setAcc (t.acc - m)) (by cases h; rfl) with ⟨h1, e⟩ | h1
    · exact .inr (.inr (.inr ⟨_, ⟨h1, rfl⟩, e⟩))
    · exact .inr (.inl h1)
  | divide a =>
    rcases runHandler_withOperand ht a (fun m t => if m = 0 then .aborted (t.raiseAbort .divideByZero a)
      else .completed (t.setAcc (quotient t.cfg.divMode t.acc m))) with ⟨h1, e⟩ | ⟨h1, e⟩ <;>
      replace h := (Host.Outcome.next.inj h).symm.trans e
    · by_cases hz : s.mem.read a = 0
      · simp only [if_pos hz] at h
        exact .inr (.inl ⟨_, by simp, _, _, h, .inl rfl⟩)
      · simp only [if_neg hz] at h
        exact .inr (.inr (.inr ⟨_, ⟨h1, hz, rfl⟩, h⟩))
    · exact .inr (.inl ⟨_, by simp, _, _, h, .inl rfl⟩)
  | multiply a =>
    rcases loaded a (fun m t => t.setAcc (t.acc * m)) (by cases h; rfl) with ⟨h1, e⟩ | h1
    · exact .inr (.inr (.inr ⟨_, ⟨h1, rfl⟩, e⟩))
    · exact .inr (.inl h1)
  | branch a =>
    exact .inr (.inr (.inr ⟨_, rfl,
      (Host.Outcome.next.inj h).symm.trans (runHandler_branchIf ht a (fun _ => true) true rfl)⟩))
  | branchneg a =>
    exact .inr (.inr (.inr ⟨_, rfl,
      (Host.Outcome.next.inj h).symm.trans (runHandler_branchIf ht a (fun t => t.accNegative) s.accNegative rfl)⟩))
  | branchzero a =>
    exact .inr (.inr (.inr ⟨_, rfl,
      (Host.Outcome.next.inj h).symm.trans (runHandler_branchIf ht a (fun t => t.accZero) s.accZero rfl)⟩))
  | halt a =>
    refine .inr (.inr (.inl ⟨a, rfl, (Host.Outcome.next.inj h).symm.trans ?_⟩))
    rw [runHandler_eq, State.start_advance s ht]
    rfl

end Sys2Proof.Machine
end

