-- ==== Sys2Proof/Laws/Host.lean ====
section
/-! SUPPORT. What a host event can do, said once: every claim about `react` is meant to start from `react_cases`. -/

namespace Sys2Proof.Machine

/-- Issuing a step: the READ wait, or the step with its outcome. -/
theorem issueStep_cases {p : RunPhase} {f : State → RunPhase} {s t : State} {r : Reply} (ht : s.terminal = false)
    (h : issueStep p f s = .next (r, t)) :
    (s.waiting = true ∧ r = .waiting ∧ t = { s with runPhase := p }) ∨
    (s.waiting = false ∧ ∃ u, step s = .next u ∧ r = .stepped (stepOutcome u) ∧ t = { u with runPhase := f u }) := by
  unfold issueStep at h
  rw [State.stepEnabled_eq ht] at h
  cases hw : s.waiting with
  | true => rw [hw] at h; cases h; exact .inl ⟨rfl, rfl, rfl⟩
  | false =>
    rw [hw] at h
    cases hs : step s with
    | next u => simp only [hs] at h; cases h; exact .inr ⟨rfl, u, rfl, rfl, rfl⟩
    | fault f => cases f
    | refused f => simp only [hs] at h; cases h

/-- One pass of the `run` loop. -/
theorem proceedRun_cases {s t : State} {r : Reply} (h : proceedRun s = .next (r, t)) :
    s.runPhase ≠ .idle ∧
    ((s.terminal = true ∧ r = .stopped s.rs s.cause ∧ t = { s with runPhase := .idle }) ∨
     (s.terminal = false ∧ s.runPhase = .loopTop ∧ s.stopRequest = true ∧ r = .paused ∧
        t = { s with runPhase := .idle, stopRequest := false }) ∨
     (s.terminal = false ∧ issueStep .committed phaseAfterStep s = .next (r, t))) := by
  unfold proceedRun at h
  split_ifs at h with h1 h2 h3
  · cases h; exact ⟨h1, .inl ⟨h2, rfl, rfl⟩⟩
  · simp only [Bool.and_eq_true, decide_eq_true_eq] at h3
    cases h
    exact ⟨h1, .inr (.inl ⟨by simpa using h2, h3.1, h3.2, rfl, rfl⟩)⟩
  · exact ⟨h1, .inr (.inr ⟨by simpa using h2, h⟩)⟩

/-- A port operation changes memory and nothing else. -/
theorem hostLoad_state (items : List LoadEntry) (s : State) : ∃ m, (hostLoad items s).2 = { s with mem := m } :=
  hostLoad_keeps (fun t => ∃ m, t = { s with mem := m })
    (fun _ a v ⟨m, hm⟩ _ _ => ⟨m.write a v, by rw [hm]; rfl⟩) items s ⟨s.mem, rfl⟩

/-- Everything a host event can leave: a begun run, a boot, a step, a change of the run's phase with the stop request raised or taken
or an input added, or a change of memory through the port. -/
theorem react_cases {e : Event} {s t : State} {r : Reply} (h : react e s = .next (r, t)) :
    (∃ b, e = .run b ∧ t = beginRun b s) ∨
    (e = .boot ∧ t = s.boot) ∨
    ((e = .singleStep ∨ e = .proceed) ∧ ∃ u p, step s = .next u ∧ t = { u with runPhase := p }) ∨
    (∃ p q i, t = { s with runPhase := p, stopRequest := q, input := i } ∧
      (q = s.stopRequest ∨ (e = .stopRequest ∧ q = true) ∨ (e = .proceed ∧ q = false)) ∧
      (i = s.input ∨ ∃ v, e = .input v ∧ i = s.input ++ [v])) ∨
    (∃ m, t = { s with mem := m } ∧
      ((∃ a v, e = .hostWrite a v ∧ t = (hostWrite a v s).2) ∨ m = [] ∨ ∃ items, t = (hostLoad items s).2)) := by
  have phase : ∀ p, t = { s with runPhase := p } → ∃ p q i, t = { s with runPhase := p, stopRequest := q, input := i } ∧
      (q = s.stopRequest ∨ (e = .stopRequest ∧ q = true) ∨ (e = .proceed ∧ q = false)) ∧
      (i = s.input ∨ ∃ v, e = .input v ∧ i = s.input ++ [v]) :=
    fun p e => ⟨p, s.stopRequest, s.input, e, .inl rfl, .inl rfl⟩
  have issued : ∀ {p f}, s.terminal = false → issueStep p f s = .next (r, t) →
      (∃ u p, step s = .next u ∧ t = { u with runPhase := p }) ∨ t = { s with runPhase := p } := by
    intro p f ht h
    rcases issueStep_cases ht h with ⟨-, -, e⟩ | ⟨-, u, hu, -, e⟩
    · exact .inr e
    · exact .inl ⟨u, f u, hu, e⟩
  cases e with
  | boot => cases h; exact .inr (.inl ⟨rfl, rfl⟩)
  | run b => simp only [react] at h; split_ifs at h; cases h; exact .inl ⟨b, rfl, rfl⟩
  | proceed =>
    rcases proceedRun_cases h with ⟨-, ⟨-, -, e⟩ | ⟨-, -, -, -, e⟩ | ⟨ht, h⟩⟩
    · exact .inr (.inr (.inr (.inl (phase _ e))))
    · exact .inr (.inr (.inr (.inl ⟨.idle, false, s.input, e, .inr (.inr ⟨rfl, rfl⟩), .inl rfl⟩)))
    · exact .inr (.inr ((issued ht h).imp (fun h => ⟨.inr rfl, h⟩) (fun e => .inl (phase _ e))))
  | singleStep =>
    simp only [react, singleStep] at h
    split_ifs at h with _ ht
    · cases h; exact .inr (.inr (.inr (.inl (phase s.runPhase rfl))))
    · exact .inr (.inr ((issued (by simpa using ht) h).imp (fun h => ⟨.inl rfl, h⟩) (fun e => .inl (phase _ e))))
  | stopRequest =>
    cases h; exact .inr (.inr (.inr (.inl ⟨s.runPhase, true, s.input, rfl, .inr (.inl ⟨rfl, rfl⟩), .inl rfl⟩)))
  | input v =>
    cases h; exact .inr (.inr (.inr (.inl ⟨s.runPhase, s.stopRequest, s.input ++ [v], rfl, .inl rfl, .inr ⟨v, rfl, rfl⟩⟩)))
  | status => cases h; exact .inr (.inr (.inr (.inl (phase s.runPhase rfl))))
  | hostRead a =>
    simp only [react, atPort] at h; split_ifs at h; cases h
    exact .inr (.inr (.inr (.inl (phase s.runPhase rfl))))
  | hostWrite a v =>
    simp only [react, atPort] at h; split_ifs at h; cases h
    rcases hostWrite_state_cases a v s with e | ⟨w, -, -, e⟩
    · exact .inr (.inr (.inr (.inr ⟨s.mem, by rw [e], .inl ⟨a, v, rfl, rfl⟩⟩)))
    · exact .inr (.inr (.inr (.inr ⟨s.mem.write a.toNat w, by rw [e]; rfl, .inl ⟨a, v, rfl, rfl⟩⟩)))
  | hostClear =>
    simp only [react, atPort] at h; split_ifs at h; cases h
    exact .inr (.inr (.inr (.inr ⟨[], rfl, .inr (.inl rfl)⟩)))
  | hostLoad items =>
    simp only [react, atPort] at h; split_ifs at h; cases h
    obtain ⟨m, hm⟩ := hostLoad_state items s
    exact .inr (.inr (.inr (.inr ⟨m, hm, .inr (.inr ⟨items, rfl⟩)⟩)))

end Sys2Proof.Machine
end

