-- ==== Sys2Proof/Laws/PerInstr.lean ====
section
/-! SUPPORT. The family `EncodedInRange`: the word of a well-formed instruction lies in the operator's band of
30_encoding.md R63, between `T` and `WMAX`, one lemma per constructor. -/

namespace Sys2Proof.Laws

/-- The encoding of `i` stands in its operator's word range, which is within `T .. WMAX` (30_encoding.md R60, R63). -/
def EncodedInRange.Statement (i : Instr) : Prop :=
  ∀ c : Config, c.Valid → i.WellFormed c →
    (c.minInstr : Int) ≤ encode c i ∧ encode c i ≤ (c.wmax : Int) ∧
    ((i.operator * c.opBase : Nat) : Int) ≤ encode c i ∧
    encode c i ≤ ((i.operator * c.opBase + (c.opBase - 1) : Nat) : Int)

/-- The band of an operator with two digits lies in `T .. WMAX`. -/
theorem EncodedInRange.ofOperator (i : Instr) : EncodedInRange.Statement i := by
  intro c hc hw
  obtain ⟨h10, h43⟩ := i.operator_bounds
  have hT := c.minInstr_eq (by have := hc.1; omega)
  have hM := c.wmax_succ_eq (by have := hc.1; omega)
  have hlo : 10 * c.opBase ≤ i.operator * c.opBase := Nat.mul_le_mul_right _ h10
  have hhi : i.operator * c.opBase ≤ 43 * c.opBase := Nat.mul_le_mul_right _ h43
  have hw' : i.operand < c.opBase := hw
  unfold encode
  refine ⟨?_, ?_, ?_, ?_⟩ <;> omega

theorem EncodedInRange.read (a : Nat) : EncodedInRange.Statement (.read a) := ofOperator _
theorem EncodedInRange.write (a : Nat) : EncodedInRange.Statement (.write a) := ofOperator _
theorem EncodedInRange.load (a : Nat) : EncodedInRange.Statement (.load a) := ofOperator _
theorem EncodedInRange.store (a : Nat) : EncodedInRange.Statement (.store a) := ofOperator _
theorem EncodedInRange.add (a : Nat) : EncodedInRange.Statement (.add a) := ofOperator _
theorem EncodedInRange.subtract (a : Nat) : EncodedInRange.Statement (.subtract a) := ofOperator _
theorem EncodedInRange.divide (a : Nat) : EncodedInRange.Statement (.divide a) := ofOperator _
theorem EncodedInRange.multiply (a : Nat) : EncodedInRange.Statement (.multiply a) := ofOperator _
theorem EncodedInRange.branch (a : Nat) : EncodedInRange.Statement (.branch a) := ofOperator _
theorem EncodedInRange.branchneg (a : Nat) : EncodedInRange.Statement (.branchneg a) := ofOperator _
theorem EncodedInRange.branchzero (a : Nat) : EncodedInRange.Statement (.branchzero a) := ofOperator _
theorem EncodedInRange.halt (a : Nat) : EncodedInRange.Statement (.halt a) := ofOperator _

end Sys2Proof.Laws
end

