-- ==== Sys2Proof/Tests/Slice0.lean ====
section
/-! SUPPORT. The model's own tests. Expected results are the spec's: 95_test_vectors.md (the vector is named at each test) and
the encodings of 30_encoding.md §5. Then, for every statement of Sys2Proof/Certificates/Slice0/Obligations.lean that has
hypotheses, a concrete instance that meets them, clause by clause. -/

namespace Sys2Proof.Tests

open Sys2Proof Sys2Proof.Machine

/-! ### Helpers -/

/-- The reference configuration with another word width. -/
def width (k : Nat) : Config := { Config.reference with wordDigits := k }

/-- The reference configuration with 50 words, where operands 50 to 99 are outside memory. -/
def small : Config := { Config.reference with memWords := 50 }

/-- Power-on with a memory. -/
def demo (m : Memory) : State := { State.reset with mem := m }

/-- A core of the configuration `small`, with a memory and an accumulator. -/
def at50 (m : Memory) (acc : Int) : State := { State.powerOn small with mem := m, acc := acc }

/-- The next state of a step, if there is one. -/
def nextOf (o : Host.Outcome State Fault Refusal) : Option State :=
  match o with
  | .next t => some t
  | .fault _ => none
  | .refused _ => none

/-- What `f` sees after one step. -/
def stepView {α : Type} (s : State) (f : State → α) : Option α := (nextOf (step s)).map f

/-- The reply to an event and what `f` sees after it. -/
def eventView {α : Type} (e : Event) (s : State) (f : State → α) : Option (Reply × α) :=
  match react e s with
  | .next (r, t) => some (r, f t)
  | .fault _ => none
  | .refused _ => none

/-- The refusal of an event, if it is refused. -/
def refusalOf (e : Event) (s : State) : Option Refusal :=
  match react e s with
  | .next _ => none
  | .fault _ => none
  | .refused r => some r

/-! ### Well-formedness and parameters (smoke) -/

theorem test_operand_100_ill_formed : ¬ (Instr.load 100).WellFormed Config.reference := by decide
theorem test_operand_99_well_formed : (Instr.load 99).WellFormed Config.reference := by decide
theorem test_operand_10_ill_formed_at_three_digits : ¬ (Instr.halt 10).WellFormed (width 3) := by decide
theorem test_width_2_refused : ¬ (width 2).Valid := by decide
theorem test_no_memory_refused : ¬ { Config.reference with memWords := 0 }.Valid := by decide
theorem test_no_budget_refused : ¬ { Config.reference with maxSteps := 0 }.Valid := by decide
theorem test_smallest_parameters : { Config.reference with wordDigits := 3, memWords := 1, maxSteps := 1 }.Valid := by decide
theorem test_assemble_refuses_operand_100 : assemble Config.reference (.branch 100) = none := by decide
/-- D2 to D4: a configuration outside the model is refused by name. -/
theorem test_step_refuses_bad_parameters :
    step (State.powerOn (width 2)) = .refused .configOutsideModel := rfl

/-! ### Decoding: one word per constructor, written from the table of 30_encoding.md §5 -/

theorem test_decode_read : decode Config.reference 1000 = .ok (.read 0) ∧ decode Config.reference 1099 = .ok (.read 99) := by decide
theorem test_decode_write : decode Config.reference 1100 = .ok (.write 0) := by decide
theorem test_decode_load : decode Config.reference 2010 = .ok (.load 10) := by decide
theorem test_decode_store : decode Config.reference 2140 = .ok (.store 40) := by decide
theorem test_decode_add : decode Config.reference 3011 = .ok (.add 11) := by decide
theorem test_decode_subtract : decode Config.reference 3150 = .ok (.subtract 50) := by decide
theorem test_decode_divide : decode Config.reference 3211 = .ok (.divide 11) := by decide
theorem test_decode_multiply : decode Config.reference 3399 = .ok (.multiply 99) := by decide
theorem test_decode_branch : decode Config.reference 4007 = .ok (.branch 7) := by decide
theorem test_decode_branchneg : decode Config.reference 4107 = .ok (.branchneg 7) := by decide
theorem test_decode_branchzero : decode Config.reference 4259 = .ok (.branchzero 59) := by decide
/-- V11. -/
theorem test_decode_halt : decode Config.reference 4300 = .ok (.halt 0) ∧ decode Config.reference 4377 = .ok (.halt 77) := by decide

/-- L1-3 and V3 to V7. -/
theorem test_decode_invalid_operator :
    ∀ w ∈ [(2300 : Int), 4599, 9999, 1999, 2200, 3400, 4400, 1200], decode Config.reference w = .error .invalidOperator := by decide
/-- L1-4 and V8. -/
theorem test_decode_too_small : ∀ w ∈ [(999 : Int), 0, 100], decode Config.reference w = .error .operationTooSmall := by decide
/-- L1-4, V9 and V10. -/
theorem test_decode_negative : ∀ w ∈ [(-1 : Int), -2010, -9999], decode Config.reference w = .error .negativeOperation := by decide
/-- L1-4b: the thresholds at `W = 6`. -/
theorem test_decode_six_digits :
    decode (width 6) 20300 = .error .operationTooSmall ∧ decode (width 6) 100000 = .ok (.read 0) ∧
    decode (width 6) 200300 = .ok (.load 300) ∧ decode (width 6) 430000 = .ok (.halt 0) := by decide
/-- V12, V13, V15 and V16. -/
theorem test_decode_other_widths :
    decode (width 5) 20123 = .ok (.load 123) ∧ decode (width 5) 9999 = .error .operationTooSmall ∧
    decode (width 3) 205 = .ok (.load 5) ∧ decode (width 3) 439 = .ok (.halt 9) ∧
    decode (width 3) 99 = .error .operationTooSmall := by decide
/-- V17. -/
theorem test_encode :
    encode Config.reference (.branchneg 7) = 4107 ∧ encode Config.reference (.halt 0) = 4300 ∧
    assemble Config.reference (.read 30) = some 1030 := by decide
/-- L1-10: `T` at three widths. -/
theorem test_too_small_threshold :
    Config.reference.minInstr = 1000 ∧ (width 5).minInstr = 10000 ∧ (width 6).minInstr = 100000 := by decide
/-- The host's question on a table row, and on bits that are no instruction (log 11). -/
theorem test_decodeTableWord : decodeTableWord 16 3211 = some (.divide 11) ∧ decodeTableWord 16 5000 = none := by decide

/-! ### One step -/

/-- C1: a fetch outside memory does not advance. -/
theorem test_fetch_outside :
    stepView { demo [] with pc := 100, rs := .running, sr := 5 } (fun t => (t.cause, t.info, t.pc, t.sr)) =
      some (.addressErrorFetch, 100, 100, 5) := by decide
/-- C2: the first step of a machine with nothing loaded. -/
theorem test_step_at_power_on :
    stepView State.reset (fun t => (t.rs, t.cause, t.pc, t.sr)) = some (.aborted, .operationTooSmall, 1, 1000) := by decide
/-- C3. -/
theorem test_step_negative : stepView (demo [(0, -2010)]) (fun t => (t.cause, t.info, t.pc)) = some (.negativeOperation, -2010, 1) := by decide
/-- C4. -/
theorem test_step_invalid_operator : stepView (demo [(0, 5000)]) (fun t => (t.cause, t.info, t.sr)) = some (.invalidOperator, 5000, 1000) := by decide
/-- C5: the last step of the budget keeps its effects. -/
theorem test_budget_ends :
    stepView { demo [(0, 2010), (10, 8)] with sr := 1 } (fun t => (t.acc, t.sr, t.cause)) = some (8, 0, .stepBudgetExceeded) := by decide

/-- IO1. -/
theorem test_read : stepView { demo [(5, 1030)] with pc := 5, input := [42, 7] } (fun t => (t.mem.read 30, t.pc, t.sr, t.input)) =
    some (42, 6, 999, [7]) := by decide
/-- IO4: an out-of-range input is consumed and not stored. -/
theorem test_read_range : stepView { demo [(5, 1030)] with pc := 5, input := [10000] } (fun t => (t.cause, t.info, t.mem.read 30, t.input, t.pc)) =
    some (.rangeError, 10000, 0, [], 6) := by decide
/-- IO9. -/
theorem test_write : stepView { demo [(7, 1130), (30, -8)] with pc := 7, output := [1] } (fun t => (t.output, t.pc)) = some ([1, -8], 8) := by decide
/-- IO11. -/
theorem test_write_outside : stepView (at50 [(0, 1160)] 0) (fun t => (t.cause, t.info, t.output)) = some (.addressErrorOperand, 60, []) := by decide
/-- LS1. -/
theorem test_load : stepView (demo [(0, 2010), (10, 8)]) (fun t => (t.acc, t.pc, t.sr)) = some (8, 1, 999) := by decide
/-- LS4. -/
theorem test_load_outside : stepView (at50 [(0, 2060)] 3) (fun t => (t.cause, t.info, t.acc)) = some (.addressErrorOperand, 60, 3) := by decide
/-- LS7. -/
theorem test_store : stepView { demo [(0, 2140)] with acc := -9999 } (fun t => (t.mem.read 40, t.acc)) = some (-9999, -9999) := by decide
/-- LS9. -/
theorem test_store_range : stepView { demo [(0, 2140), (40, 5)] with acc := -10000 } (fun t => (t.cause, t.info, t.mem.read 40)) =
    some (.rangeError, -10000, 5) := by decide
/-- A2. -/
theorem test_add : stepView { demo [(0, 3010), (10, 9999)] with acc := 9999 } (·.acc) = some 19998 := by decide
/-- A17. -/
theorem test_add_outside : stepView (at50 [(0, 3060)] 3) (fun t => (t.cause, t.info, t.acc)) = some (.addressErrorOperand, 60, 3) := by decide
/-- A7. -/
theorem test_subtract : stepView (demo [(0, 3110), (10, 7)]) (·.acc) = some (-7) := by decide
/-- A15. -/
theorem test_divide_by_zero : stepView { demo [(0, 3211)] with acc := 7 } (fun t => (t.cause, t.info, t.acc, t.sr)) =
    some (.divideByZero, 11, 7, 1000) := by decide
/-- The DIVIDE table of L2-5 in both modes, through one step. -/
theorem test_divide :
    ∀ r ∈ [((7 : Int), (2 : Int), (3 : Int), (3 : Int)), (-7, 2, -3, -4), (7, -2, -3, -4), (-7, -2, 3, 3), (-6, 3, -2, -2), (-1, 2, 0, -1),
        (1, -2, 0, -1), (-9999, 10, -999, -1000), (9998, -9999, 0, -1), (12345, -1, -12345, -12345)],
      stepView { demo [(0, 3211), (11, r.2.1)] with acc := r.1 } (·.acc) = some r.2.2.1 ∧
      stepView { demo [(0, 3211), (11, r.2.1)] with acc := r.1, cfg := { Config.reference with divMode := .floor } } (·.acc) =
        some r.2.2.2 := by decide
/-- A9 and A10. -/
theorem test_multiply : stepView { demo [(0, 3310), (10, -3)] with acc := -12 } (·.acc) = some 36 ∧
    stepView { demo [(0, 3310), (10, 9999)] with acc := 9999 } (·.acc) = some 99980001 := by decide
/-- B1 and B3: the target is not checked. -/
theorem test_branch : stepView { demo [(5, 4000)] with pc := 5 } (fun t => (t.pc, t.sr)) = some (0, 999) ∧
    stepView (at50 [(0, 4099)] 0) (fun t => (t.pc, t.rs)) = some (99, .running) := by decide
/-- B4, B5 and B6. -/
theorem test_branchneg : ∀ r ∈ [((-1 : Int), 7), (0, 3), (1, 3)],
    stepView { demo [(2, 4107)] with pc := 2, acc := r.1 } (·.pc) = some r.2 := by decide
/-- B8, B9 and B10. -/
theorem test_branchzero : ∀ r ∈ [((0 : Int), 59), (-1, 3), (10000, 3)],
    stepView { demo [(2, 4259)] with pc := 2, acc := r.1 } (·.pc) = some r.2 := by decide
/-- B11 and C6: HALT consumes no budget. -/
theorem test_halt : stepView { demo [(3, 4377)] with pc := 3, sr := 1 } (fun t => (t.rs, t.pc, t.sr, t.cause)) = some (.halted, 4, 1, .none) := by decide
/-- The word placed where the next fetch reads it (log 11). -/
theorem test_withFetchWord : stepView (State.reset.withFetchWord 16 4107) (·.pc) = some 1 ∧
    (State.reset.withFetchWord 16 1030).input = [0] := by decide

/-! ### The codec, the host port and the host commands -/

/-- L1-1. -/
theorem test_format :
    formatWord Config.reference (-8) = .ok ['-', '0', '0', '0', '8'] ∧ formatWord Config.reference 0 = .ok ['+', '0', '0', '0', '0'] ∧
    formatWord Config.reference 9999 = .ok ['+', '9', '9', '9', '9'] ∧ formatWord Config.reference (-10000) = .error .rangeError := by decide
/-- L1-1. -/
theorem test_parse :
    parseWord Config.reference ['+', '0', '0', '2', '4'] = .ok 24 ∧ parseWord Config.reference ['-', '0', '0', '0', '0'] = .ok 0 ∧
    ∀ t ∈ [['+', '0', '2', '4'], ['+', '0', '0', '2', '4', '0'], ['0', '0', '2', '4'], ['*', '0', '0', '2', '4'], ['+', '0', '0', 'a', '4']],
      parseWord Config.reference t = .error .formatError := by decide
/-- L1-8: the three program lines. -/
theorem test_program_lines :
    ["+2010".toList, "bad".toList, "+4300 HALT".toList].map (entryOfLine Config.reference) = [.word 2010, .malformed, .word 4300] := by decide
theorem test_listing : listing Config.reference (.branchneg 7) = "BRANCHNEG 07".toList := by decide

/-- H1, H2, H4 and H5. -/
theorem test_hostWrite :
    eventView (.hostWrite 5 (.text "+1234".toList)) (demo []) (fun t => t.mem.read 5) = some (.port .ok, 1234) ∧
    eventView (.hostWrite 5 (.text "1234".toList)) (demo [(5, 7)]) (fun t => t.mem.read 5) = some (.port .formatError, 7) ∧
    eventView (.hostWrite 5 (.int 10000)) (demo [(5, 7)]) (fun t => t.mem.read 5) = some (.port .rangeError, 7) ∧
    eventView (.hostWrite 100 (.text "bad".toList)) (demo []) (·.mem) = some (.port .addressError, []) := by decide
/-- L1-2. -/
theorem test_hostRead :
    eventView (.hostRead 99) (demo [(99, 4)]) (·.mem) = some (.port (.word 4), [(99, 4)]) ∧
    eventView (.hostRead 100) (demo []) (·.mem) = some (.port .addressError, []) ∧
    eventView (.hostRead (-1)) (demo []) (·.mem) = some (.port .addressError, []) := by decide
/-- H6. -/
theorem test_hostClear : eventView .hostClear { demo [(5, 7)] with acc := 3 } (fun t => (t.mem, t.acc)) = some (.port .ok, [], 3) := by decide
/-- L1-8 under both policies, at three words all 7. -/
theorem test_hostLoad :
    eventView (.hostLoad [.word 2010, .malformed, .word 4300]) (demo [(0, 7), (1, 7), (2, 7), (3, 7)]) (·.mem) =
      some (.port .ok, [(0, 2010), (2, 4300), (3, 7)]) ∧
    eventView (.hostLoad [.word 2010, .malformed, .word 4300])
      { demo [(0, 7), (1, 7), (2, 7), (3, 7)] with cfg := { Config.reference with loadPolicy := .abort } } (·.mem) =
      some (.port (.formatErrorAt 1), [(0, 2010), (1, 7), (2, 7), (3, 7)]) := by decide
/-- H7 at `N = 1`. -/
theorem test_hostLoad_too_long :
    eventView (.hostLoad [.word 1, .word 2]) (State.powerOn { Config.reference with memWords := 1 }) (·.mem) = some (.port .rangeError, []) := by decide
/-- R1 and R4. -/
theorem test_boot :
    { demo [(0, 2010)] with rs := .aborted, cause := .divideByZero, info := 11, acc := 7, pc := 2, sr := 3, stopRequest := true }.boot =
      demo [(0, 2010)] := by decide
/-- H11. -/
theorem test_run_paused :
    eventView .proceed { demo [(0, 4000)] with rs := .running, stopRequest := true, runPhase := .loopTop } (fun t => (t.stopRequest, t.rs, t.sr)) =
      some (.paused, false, .running, 1000) := by decide
/-- H12 and C9. -/
theorem test_singleStep :
    eventView .singleStep (demo [(0, 4000)]) (fun t => (t.rs, t.sr, t.pc)) = some (.stepped .continued, .running, 999, 0) ∧
    eventView .singleStep { demo [] with rs := .halted } (·.rs) = some (.stopped .halted .none, .halted) := by decide
/-- R48 and R120: no memory port during an active run. -/
theorem test_port_during_run : refusalOf (.hostRead 0) { demo [] with runPhase := .committed } = some .brokenHostDuty := by decide

/-! ### Witnesses: for each statement with hypotheses, an instance that meets them, clause by clause -/

/-- A running core in the middle of its work, none of its registers at its reset value. -/
def busy : State :=
  { cfg := Config.reference, acc := -10000, pc := 7, rs := .running, sr := 5, cause := .none, info := 0,
    mem := [(0, 2010), (7, 1030), (30, -8), (99, 9999)], stopRequest := true, input := [42, 0, 0, 0, 0, 0], output := [1],
    runPhase := .idle }

theorem busy_words (a : Nat) : busy.cfg.InWord (busy.mem.read a) := by
  have h : ∀ v ∈ [(2010 : Int), 1030, -8, 9999, 0], busy.cfg.InWord v := by decide
  simp only [busy, Memory.read]
  split_ifs <;> exact h _ (by decide)

theorem busy_inv : Inv busy :=
  ⟨by decide, by decide, by decide, by decide, busy_words, by decide, by decide, by decide⟩

/-- The same core stopped by an abort. -/
def broken : State := { busy with rs := .aborted, cause := .rangeError, info := 10000 }

theorem broken_inv : Inv broken :=
  ⟨by decide, by decide, by decide, by decide, busy_words, by decide, busy_inv.pc_le, by decide⟩

/-- A machine at the smallest parameters and the smallest budget. -/
def tiny : State :=
  { State.powerOn { Config.reference with wordDigits := 3, memWords := 1, maxSteps := 1 } with input := [5] }

theorem tiny_inv : Inv tiny :=
  ⟨by decide, by decide, by decide, by decide, fun a => by simp only [tiny, State.powerOn, Memory.read]; decide,
    by decide, by decide, by decide⟩

theorem witness_DecodeOfEncodeIsIdentity :
    Config.reference.Valid ∧ (Instr.halt 99).WellFormed Config.reference ∧
    (width 3).Valid ∧ (Instr.read 9).WellFormed (width 3) := by decide
theorem witness_EncodeOfDecodeIsIdentity :
    Config.reference.Valid ∧ decode Config.reference 1000 = .ok (.read 0) ∧ decode Config.reference 4399 = .ok (.halt 99) := by decide

/-- The four rows of the decode table at both ends of each range: negative, too small, an operator, no operator. -/
theorem witness_StepClassifiesFetchedWord :
    (∀ w ∈ [(-9999 : Int), -1, 0, 999, 1000, 4399, 4400, 9999],
      (demo [(0, w)]).cfg.Valid ∧ (demo [(0, w)]).terminal = false ∧ (demo [(0, w)]).pc < (demo [(0, w)]).cfg.memWords ∧
      w = (demo [(0, w)]).mem.read (demo [(0, w)]).pc ∧ (demo [(0, w)]).cfg.InWord w) ∧
    ((-1 : Int) < 0 ∧ (-9999 : Int) < 0) ∧
    ((0 : Int) ≤ 0 ∧ (0 : Int) < 10 ^ (4 - 1) ∧ (0 : Int) ≤ 999 ∧ (999 : Int) < 10 ^ (4 - 1)) ∧
    ((10 : Int) ^ (4 - 1) ≤ 1000 ∧ (1000 : Int) / 10 ^ (4 - 2) = 10 ∧ (10 : Int) ^ (4 - 1) ≤ 4399 ∧ (4399 : Int) / 10 ^ (4 - 2) = 43) ∧
    ((10 : Int) ^ (4 - 1) ≤ 4400 ∧ (4400 : Int) / 10 ^ (4 - 2) ∉ [(10 : Int), 11, 20, 21, 30, 31, 32, 33, 40, 41, 42, 43] ∧
      (10 : Int) ^ (4 - 1) ≤ 9999 ∧ (9999 : Int) / 10 ^ (4 - 2) ∉ [(10 : Int), 11, 20, 21, 30, 31, 32, 33, 40, 41, 42, 43]) := by
  decide

theorem witness_AssembleEncodesListingLine :
    (30, Instr.add) ∈ [(10, Instr.read), (11, .write), (20, .load), (21, .store), (30, .add), (31, .subtract),
      (32, .divide), (33, .multiply), (40, .branch), (41, .branchneg), (42, .branchzero), (43, .halt)] ∧
    99 < 10 ^ (Config.reference.wordDigits - 2) ∧ 10 ^ (Config.reference.wordDigits - 2) ≤ 100 :=
  ⟨by simp, by decide, by decide⟩
theorem witness_WordTextRoundTrip :
    Config.reference.InWord 9999 ∧ Config.reference.InWord (-9999) ∧
    (∀ ds ∈ [['9', '9', '9', '9'], ['0', '0', '0', '1']], ds.length = Config.reference.wordDigits ∧ (∀ d ∈ ds, '0' ≤ d ∧ d ≤ '9') ∧
      ∃ d ∈ ds, d ≠ '0') := ⟨by decide, by decide, by simp [Config.reference]⟩
theorem witness_ParseAcceptsExactlyWordTexts :
    (∃ (sign : Char) (ds : List Char), ['-', '9', '9', '9', '9'] = sign :: ds ∧ ds.length = Config.reference.wordDigits ∧
      (sign = '+' ∨ sign = '-') ∧ ∀ d ∈ ds, '0' ≤ d ∧ d ≤ '9') ∧
    (¬ ∃ (sign : Char) (ds : List Char), ['+', '0', '2', '4'] = sign :: ds ∧ ds.length = Config.reference.wordDigits ∧
      (sign = '+' ∨ sign = '-') ∧ ∀ d ∈ ds, '0' ≤ d ∧ d ≤ '9') ∧
    parseWord Config.reference ['-', '9', '9', '9', '9'] = .ok (-9999) := by
  refine ⟨⟨'-', ['9', '9', '9', '9'], by simp [Config.reference]⟩, ?_, by decide⟩
  rintro ⟨sign, ds, h, hl, -⟩
  rw [← (List.cons.inj h).2] at hl
  exact absurd hl (by decide)
theorem witness_FormatGivesSignAndDigits :
    Config.reference.InWord (-9999) ∧ Config.reference.InWord 9999 ∧ ¬ Config.reference.InWord 10000 ∧
    ¬ Config.reference.InWord (-10000) := by decide

theorem witness_StepRunsDecodedInstruction :
    busy.cfg.Valid ∧ busy.terminal = false ∧ busy.pc < busy.cfg.memWords ∧
    decode busy.cfg (busy.mem.read busy.pc) = .ok (.read 30) := by decide
/-- Both clauses at the edge of memory. -/
theorem witness_FetchReadsOrAborts :
    { busy with pc := 99 }.pc < { busy with pc := 99 }.cfg.memWords ∧
    { busy with pc := 100 }.cfg.Valid ∧ { busy with pc := 100 }.terminal = false ∧
    { busy with pc := 100 }.cfg.memWords ≤ { busy with pc := 100 }.pc := by decide
theorem witness_StepAlwaysAnswersNextState : busy.cfg.Valid ∧ tiny.cfg.Valid := by decide
/-- At a running core, and at the smallest machine, whose step ends the budget. -/
theorem witness_StepOutcomesLeaveTabulatedState :
    (Inv busy ∧ busy.terminal = false ∧ busy.waiting = false ∧ ∃ t, step busy = .next t) ∧
    (Inv tiny ∧ tiny.terminal = false ∧ tiny.waiting = false ∧ ∃ t, step tiny = .next t) :=
  ⟨⟨busy_inv, by decide, by decide, _, rfl⟩, tiny_inv, by decide, by decide, _, rfl⟩
theorem witness_TerminalStatesStayUntilBoot :
    broken.cfg.Valid ∧ broken.terminal = true ∧ broken.runPhase = .idle ∧
    { busy with rs := .halted }.terminal = true ∧ { busy with rs := .halted }.runPhase = .idle := by decide
theorem witness_ReadWithoutInputChangesNothing :
    { busy with input := [] }.cfg.Valid ∧ { busy with input := [] }.terminal = false ∧ { busy with input := [] }.runPhase = .idle ∧
    nextInstr { busy with input := [] } = some (.read 30) ∧ { busy with input := [] }.input = [] := by decide

/-- What the encoding clause of each instruction statement asks, at both ends of the operand's range. -/
theorem witness_instruction_encodings :
    Config.reference.Valid ∧ 0 < 10 ^ (Config.reference.wordDigits - 2) ∧ 99 < 10 ^ (Config.reference.wordDigits - 2) := by decide

/-- The four clauses: a READ at `PC`; a word in range at the last address with one step left; a word out of range; an address
outside. -/
theorem witness_ReadInstruction :
    (busy.terminal = false ∧ nextInstr busy = some (.read 30)) ∧
    (∀ v ∈ [(-9999 : Int), 9999], { busy with input := [v], sr := 1 }.terminal = false ∧ { busy with input := [v] }.input = v :: [] ∧
      99 < busy.cfg.memWords ∧ busy.cfg.InWord v ∧ 1 ≤ { busy with sr := 1 }.sr ∧ Memory.wf busy.mem) ∧
    (∀ v ∈ [(-10000 : Int), 10000], { busy with input := [v] }.terminal = false ∧ { busy with input := [v] }.input = v :: [] ∧
      99 < busy.cfg.memWords ∧ ¬ busy.cfg.InWord v) ∧
    (busy.terminal = false ∧ busy.input = 42 :: [0, 0, 0, 0, 0] ∧ busy.cfg.memWords ≤ 100) := by decide

/-- What WRITE, LOAD, ADD, SUBTRACT and MULTIPLY ask: an address inside memory with one step left, and an address outside. -/
theorem witness_WriteInstruction :
    (at50 [(49, 7)] 3).terminal = false ∧ 49 < (at50 [(49, 7)] 3).cfg.memWords ∧ 1 ≤ { at50 [(49, 7)] 3 with sr := 1 }.sr ∧
    (at50 [(49, 7)] 3).cfg.memWords ≤ 50 := by decide
theorem witness_LoadInstruction :
    busy.terminal = false ∧ 99 < busy.cfg.memWords ∧ 1 ≤ busy.sr ∧ Inv busy ∧ busy.cfg.memWords ≤ 100 :=
  ⟨by decide, by decide, by decide, busy_inv, by decide⟩
theorem witness_StoreInstruction :
    (∀ v ∈ [(-9999 : Int), 9999], { busy with acc := v, sr := 1 }.terminal = false ∧ 99 < busy.cfg.memWords ∧
      busy.cfg.InWord { busy with acc := v, sr := 1 }.acc ∧ 1 ≤ { busy with acc := v, sr := 1 }.sr ∧ Memory.wf busy.mem) ∧
    (busy.terminal = false ∧ 99 < busy.cfg.memWords ∧ ¬ busy.cfg.InWord busy.acc) ∧ busy.cfg.memWords ≤ 100 := by decide
theorem witness_AddInstruction :
    (at50 [(49, 7)] 3).terminal = false ∧ 49 < (at50 [(49, 7)] 3).cfg.memWords ∧ 1 ≤ (at50 [(49, 7)] 3).sr ∧
    (at50 [(49, 7)] 3).cfg.memWords ≤ 99 := by decide
theorem witness_SubtractInstruction :
    busy.terminal = false ∧ 0 < busy.cfg.memWords ∧ 1 ≤ { busy with sr := 1 }.sr ∧ tiny.terminal = false ∧ tiny.cfg.memWords ≤ 1 := by decide
/-- A divisor, the zero divisor, an address outside, and a quotient of 0 by the least word. -/
theorem witness_DivideInstruction :
    (busy.terminal = false ∧ 99 < busy.cfg.memWords ∧ busy.mem.read 99 ≠ 0 ∧ 1 ≤ busy.sr) ∧
    (98 < busy.cfg.memWords ∧ busy.mem.read 98 = 0) ∧ busy.cfg.memWords ≤ 100 ∧ (-9999 : Int) ≠ 0 := by decide
theorem witness_MultiplyInstruction :
    busy.terminal = false ∧ 30 < busy.cfg.memWords ∧ 1 ≤ busy.sr ∧ tiny.terminal = false ∧ tiny.cfg.memWords ≤ 9 := by decide
theorem witness_BranchInstruction :
    busy.terminal = false ∧ 1 ≤ { busy with sr := 1 }.sr ∧ busy.cfg.Valid ∧ 2 ≤ { busy with sr := 2 }.sr ∧ busy.cfg.memWords ≤ 100 := by decide
theorem witness_BranchnegInstruction :
    busy.terminal = false ∧ 1 ≤ busy.sr ∧ { busy with acc := -1 }.acc < 0 ∧ 0 ≤ { busy with acc := 0 }.acc ∧
    busy.cfg.Valid ∧ 2 ≤ { busy with sr := 2 }.sr ∧ busy.cfg.memWords ≤ 100 := by decide
theorem witness_BranchzeroInstruction :
    busy.terminal = false ∧ 1 ≤ busy.sr ∧ { busy with acc := 0 }.acc = 0 ∧ { busy with acc := -1 }.acc ≠ 0 := by decide
theorem witness_HaltInstruction :
    busy.terminal = false ∧ { busy with rs := .halted }.rs = .halted := by decide
/-- The three forms of a taken branch, to the first address outside memory. -/
theorem witness_BranchOutsideMemoryAbortsAtNextFetch :
    (at50 [] (-1)).cfg.Valid ∧ (at50 [] (-1)).terminal = false ∧ 2 ≤ { at50 [] (-1) with sr := 2 }.sr ∧ (at50 [] (-1)).cfg.memWords ≤ 50 ∧
    (at50 [] (-1)).acc < 0 ∧ (at50 [] 0).acc = 0 := by decide
theorem witness_DivisionRounding : (2 : Int) ≠ 0 ∧ (0 : Int) < 1 ∧ (-1 : Int) < 0 ∧ (-2 : Int) ≠ 0 := by decide

/-- The three clauses: a step, a boot of an aborted core, a host write at the last address. -/
theorem witness_StepsAndEventsKeepInvariants :
    (Inv busy ∧ ∃ t, step busy = .next t) ∧ (Inv broken ∧ ∃ r t, react .boot broken = .next (r, t)) ∧
    ∃ r t, react (.hostWrite 99 (.int (-9999))) busy = .next (r, t) :=
  ⟨⟨busy_inv, _, rfl⟩, ⟨broken_inv, _, _, rfl⟩, _, _, rfl⟩
theorem witness_PowerOnMeetsInvariants : Config.reference.Valid ∧ tiny.cfg.Valid := by decide
theorem witness_CanonicalMemoriesAreEqualIfReadAlike :
    Memory.wf busy.mem ∧ Memory.wf (Memory.write [(7, 1030), (30, -8), (99, 9999)] 0 2010) ∧
    ∀ a, busy.mem.read a = (Memory.write [(7, 1030), (30, -8), (99, 9999)] 0 2010).read a :=
  ⟨by decide, by decide, fun _ => rfl⟩
/-- The READ of 42 over the word -8 at 30. -/
theorem witness_OnlyReadAndStoreWriteMemory : ∃ t, step busy = .next t ∧ t.mem ≠ busy.mem := ⟨_, rfl, by decide⟩
theorem witness_OnlyLoadAndArithmeticWriteAcc : ∃ t, step { busy with pc := 0 } = .next t ∧ t.acc ≠ busy.acc := ⟨_, rfl, by decide⟩
/-- The second clause at a HALT word, the third at a single step there, the fifth at a boot. -/
theorem witness_HaltedSetOnlyByHaltClearedOnlyByBoot :
    (∃ t, step (demo [(0, 4300)]) = .next t ∧ (demo [(0, 4300)]).halted = false ∧ t.halted = true) ∧
    (∃ r t, react .singleStep (demo [(0, 4300)]) = .next (r, t) ∧ t.halted = true) ∧
    (∃ r t, react .boot { busy with rs := .halted } = .next (r, t) ∧ { busy with rs := .halted }.halted = true ∧ t.halted = false) :=
  ⟨⟨_, rfl, by decide, by decide⟩, ⟨_, _, rfl, by decide⟩, _, _, rfl, by decide, by decide⟩
theorem witness_OnlyBootReturnsToReady :
    (∃ r t, react .boot broken = .next (r, t) ∧ t.rs = .ready ∧ broken.rs ≠ .ready) ∧
    ∃ r t, react (.run false) broken = .next (r, t) ∧ t.rs = .ready :=
  ⟨⟨_, _, rfl, by decide, by decide⟩, _, _, rfl, by decide⟩
theorem witness_ChannelsMoveOnlyByReadAndWrite : ∃ t, step busy = .next t ∧ t.input ≠ busy.input := ⟨_, rfl, by decide⟩
theorem witness_ParametersNeverChange : (∃ t, step busy = .next t) ∧ ∃ r t, react .singleStep busy = .next (r, t) :=
  ⟨⟨_, rfl⟩, _, _, rfl⟩
theorem witness_StopRequestDoesNotAffectStep : ∃ t, step busy = .next t := ⟨_, rfl⟩
theorem witness_EarlierOutputDoesNotAffectStep : ∃ t, step { demo [(0, 1100)] with output := [3] } = .next t := ⟨_, rfl⟩
/-- The three clauses at the last address, with one step left and the extreme words. -/
theorem witness_WrittenWordSeenByNextFetch :
    { busy with sr := 1 }.terminal = false ∧ 1 ≤ { busy with sr := 1 }.sr ∧ Memory.wf busy.mem ∧ 99 < busy.cfg.memWords ∧
    busy.cfg.InWord { busy with acc := 9999 }.acc ∧ busy.input = 42 :: [0, 0, 0, 0, 0] ∧ busy.cfg.InWord 42 ∧ busy.cfg.InWord (-9999) ∧
    busy.runPhase = .idle := by decide
theorem witness_BudgetBoundsEveryRun : (Inv busy ∧ busy.sr ≤ busy.input.length ∧ busy.terminal = false) ∧ Inv tiny ∧ tiny.sr ≤ tiny.input.length :=
  ⟨⟨busy_inv, by decide, by decide⟩, tiny_inv, by decide⟩
theorem witness_RunCommandReachesFinalState : Inv tiny ∧ tiny.cfg.maxSteps ≤ tiny.input.length := ⟨tiny_inv, by decide⟩

theorem witness_HostReadOperation :
    busy.runPhase = .idle ∧ (0 : Int) ≤ 99 ∧ (99 : Int) < busy.cfg.memWords ∧ (-1 : Int) < 0 ∧ (busy.cfg.memWords : Int) ≤ 100 := by decide
/-- The clauses: an address outside on each side; a text that is no word; a word out of range; words at the ends of the range. -/
theorem witness_HostWriteOperation :
    busy.runPhase = .idle ∧ Memory.wf busy.mem ∧ ((-1 : Int) < 0 ∧ (busy.cfg.memWords : Int) ≤ 100) ∧
    ((0 : Int) ≤ 0 ∧ (99 : Int) < busy.cfg.memWords) ∧
    (∀ u, parseWord busy.cfg ['1', '2', '3', '4'] ≠ .ok u) ∧
    (parseWord busy.cfg ['-', '9', '9', '9', '9'] = .ok (-9999) ∧ busy.cfg.InWord (-9999) ∧ busy.cfg.InWord 9999) ∧
    ¬ busy.cfg.InWord 10000 ∧ ¬ busy.cfg.InWord (-10000) :=
  ⟨by decide, by decide, by decide, by decide, fun u h => absurd h (by simp [parseWord, busy, Config.reference]), by decide, by decide, by decide⟩
theorem witness_HostClearOperation : busy.runPhase = .idle := rfl
/-- The clauses at `N = 2`: three entries, two entries under each policy, one of them malformed. -/
theorem witness_HostLoadOperation :
    ∀ p ∈ [LoadPolicy.zeroAndContinue, .abort],
      let s := State.powerOn { Config.reference with memWords := 2, loadPolicy := p }
      s.runPhase = .idle ∧ Memory.wf s.mem ∧ s.cfg.loadPolicy = p ∧ s.cfg.InWord 9999 ∧
      s.cfg.memWords < [LoadEntry.word 9999, .malformed, .malformed].length ∧
      [LoadEntry.word 9999, .malformed].length ≤ s.cfg.memWords ∧ [LoadEntry.word 9999, .word 9999].length ≤ s.cfg.memWords ∧
      LoadEntry.malformed ∉ [LoadEntry.word 9999, .word 9999] ∧
      [LoadEntry.word 9999, .malformed][1]? = some .malformed ∧ LoadEntry.malformed ∉ [LoadEntry.word 9999, .malformed].take 1 := by
  decide
theorem witness_MemoryPortOnlyBetweenRuns :
    { busy with runPhase := .committed }.runPhase ≠ .idle ∧ { busy with runPhase := .loopTop }.runPhase ≠ .idle ∧ busy.runPhase = .idle := by decide
/-- The third clause at the loop's top, the fourth at a core that waits for input inside a run. -/
theorem witness_StopRequestPausesBetweenSteps :
    ({ busy with runPhase := .loopTop }.runPhase = .loopTop ∧ busy.terminal = false ∧ busy.stopRequest = true) ∧
    { busy with input := [], runPhase := .committed }.cfg.Valid ∧ { busy with input := [], runPhase := .committed }.terminal = false ∧
    { busy with input := [], runPhase := .committed }.waiting = true := by decide
theorem witness_SingleStepIsOneStep :
    busy.runPhase = .idle ∧ busy.terminal = false ∧ busy.waiting = false ∧ ∃ t, step busy = .next t :=
  ⟨by decide, by decide, by decide, _, rfl⟩
theorem witness_PlacedWordRunsFirst : decodeTableWord 16 1000 = some (.read 0) ∧ decodeTableWord 16 4399 = some (.halt 99) := by decide
/-- The three passes: at a terminal state, at a READ that waits with the stop request raised after the check, and at a step; and the
`run` command between runs. -/
theorem witness_RunLoopPassAndStatus :
    busy.runPhase = .idle ∧
    ({ broken with runPhase := .loopTop }.runPhase ≠ .idle ∧ broken.terminal = true) ∧
    ({ busy with input := [], runPhase := .committed }.terminal = false ∧ { busy with input := [], runPhase := .committed }.waiting = true) ∧
    ({ busy with runPhase := .loopTop, stopRequest := false }.waiting = false ∧
      ∃ t, step { busy with runPhase := .loopTop, stopRequest := false } = .next t) :=
  ⟨by decide, by decide, by decide, by decide, _, rfl⟩

end Sys2Proof.Tests
end

section
/-! SUPPORT. The invariants of 10_state.md R30 through the machine's transitions, and who moves the halted flag (R21). -/

namespace Sys2Proof.Machine

/-! ### What each update of the state does to the invariants -/

/-- The invariants do not look at `ACC`, `INFO`, the stop request, the channels and the run's phase. -/
theorem Inv.frame {s : State} (h : Inv s) (acc info : Int) (stop : Bool) (inp out : List Int) (p : RunPhase) :
    Inv { s with acc := acc, info := info, stopRequest := stop, input := inp, output := out, runPhase := p } :=
  ⟨h.valid, h.halted_iff, h.cause_iff, h.budget, h.words, h.size, h.pc_le, h.mem_wf⟩

theorem Inv.setAcc {s : State} (h : Inv s) (v : Int) : Inv (s.setAcc v) := h.frame _ _ _ _ _ _

theorem Inv.setPc {s : State} (h : Inv s) {a : Nat} (ha : a ≤ max s.cfg.memWords (s.cfg.opBase - 1)) :
    Inv (s.setPc a) :=
  ⟨h.valid, h.halted_iff, h.cause_iff, h.budget, h.words, h.size, ha, h.mem_wf⟩

/-- The advance after a fetch inside memory leaves `PC` at most `N`. -/
theorem Inv.advance {s : State} (h : Inv s) (hp : s.pc < s.cfg.memWords) : Inv s.advance :=
  h.setPc (le_max_of_le_left hp)

/-- A memory in range and canonical may replace the old one. -/
theorem Inv.setMem {s : State} (h : Inv s) {m : Memory} (hw : ∀ a, s.cfg.InWord (m.read a))
    (hs : ∀ p ∈ m, p.1 < s.cfg.memWords) (hm : Memory.wf m) : Inv { s with mem := m } :=
  ⟨h.valid, h.halted_iff, h.cause_iff, h.budget, hw, hs, h.pc_le, hm⟩

/-- One checked word written keeps the invariants, whoever writes it. -/
theorem Inv.setWord {s : State} (h : Inv s) {a : Nat} {v : Int} (ha : a < s.cfg.memWords) (hv : s.cfg.InWord v) :
    Inv (s.setWord a v) := by
  refine h.setMem (fun b => ?_) (fun q hq => ?_) (Memory.write_wf _ _ _ h.mem_wf)
  · by_cases hb : b = a
    · rw [hb, Memory.read_write_same _ _ _ h.mem_wf]; exact hv
    · rw [Memory.read_write_other _ _ _ _ hb]; exact h.words b
  · rcases Memory.of_mem_write hq with hq | ⟨rfl, -⟩
    · exact h.size q hq
    · exact ha

theorem Inv.clearMem {s : State} (h : Inv s) : Inv { s with mem := [] } :=
  h.setMem (fun _ => s.cfg.inWord_zero) (by simp) Memory.wf_nil

/-! ### The moves of the engine state -/

/-- A core in no terminal state has no abort cause (R30 item 2). -/
theorem Inv.cause_eq_none {s : State} (h : Inv s) (ht : s.terminal = false) : s.cause = .none :=
  h.cause_iff.2 fun ha => by simp [State.terminal, ha] at ht

/-- An abort keeps the invariants, whatever budget it leaves. -/
theorem Inv.abort {s : State} (h : Inv s) {c : Cause} (hc : c ≠ .none) (n : Nat) (i : Int) :
    Inv { s with rs := .aborted, sr := n, cause := c, info := i } :=
  ⟨h.valid, State.halted_eq_true _, iff_of_false hc (not_not_intro rfl), nofun, h.words, h.size, h.pc_le, h.mem_wf⟩

theorem Inv.raiseAbort {s : State} (h : Inv s) {c : Cause} (hc : c ≠ .none) (i : Int) : Inv (s.raiseAbort c i) :=
  h.abort hc s.sr i

/-- A core that is not terminal keeps the invariants when it goes on with budget left. -/
theorem Inv.keepRunning {s : State} (h : Inv s) (ht : s.terminal = false) {n : Nat} (hn : 1 ≤ n) :
    Inv { s with rs := .running, sr := n } :=
  ⟨h.valid, State.halted_eq_true _, iff_of_true (h.cause_eq_none ht) nofun, fun _ => hn,
    h.words, h.size, h.pc_le, h.mem_wf⟩

/-- The start phase, on a core that is not terminal (40_cycle.md R73). -/
theorem Inv.running {s : State} (h : Inv s) (ht : s.terminal = false) : Inv { s with rs := .running } :=
  h.keepRunning ht (h.budget ht)

theorem Inv.signalHalt {s : State} (h : Inv s) (ht : s.terminal = false) : Inv s.signalHalt :=
  ⟨h.valid, State.halted_eq_true _, iff_of_true (h.cause_eq_none ht) nofun, nofun,
    h.words, h.size, h.pc_le, h.mem_wf⟩

/-- The count leaves a running core with budget, or the abort that says that there is none. -/
theorem Inv.count {s : State} (h : Inv s) (hr : s.rs = .running) : Inv s.count := by
  have ht : s.terminal = false := (State.terminal_eq_false s).2 (.inr hr)
  have hsr : 1 ≤ s.sr := h.budget ht
  rw [State.count_eq_counted s hr hsr]
  rcases State.counted_cases s with ⟨-, e⟩ | ⟨h1, e⟩ <;> rw [e]
  · exact h.abort (by decide) 0 0
  · exact h.keepRunning ht (by omega)

/-- Boot sets the budget to `MAX_STEPS >= 1`, and touches no word (70_reset_and_hazards.md R125). -/
theorem Inv.boot {s : State} (h : Inv s) : Inv s.boot := by
  obtain ⟨-, -, hmax⟩ := h.valid
  exact ⟨h.valid, State.halted_eq_true _, iff_of_true rfl nofun, fun _ => hmax,
    h.words, h.size, Nat.zero_le _, h.mem_wf⟩

/-! ### The step -/

theorem Effect.rs_eq {i : Instr} {s u : State} (h : Effect i s u) : u.rs = s.rs := by
  cases i with
  | read a => obtain ⟨v, rest, -, -, -, rfl⟩ := h; rfl
  | store a => obtain ⟨-, -, rfl⟩ := h; rfl
  | divide a => obtain ⟨-, -, rfl⟩ := h; rfl
  | write a | load a | add a | subtract a | multiply a => obtain ⟨-, rfl⟩ := h; rfl
  | branch a | branchneg a | branchzero a => cases h; rfl
  | halt a => exact h.elim

/-- The operand of a decoded instruction has `A` digits, so that a branch to it keeps R30 item 6. -/
theorem nextInstr_operand_le {s : State} {i : Instr} (hi : nextInstr s = some i) :
    i.operand ≤ max s.cfg.memWords (s.cfg.opBase - 1) := by
  obtain ⟨-, hd⟩ := (nextInstr_eq_some s i).1 hi
  exact le_max_of_le_right (Nat.le_sub_one_of_lt (decode_operand_lt _ _ _ hd))

/-- The effect of the instruction at `PC`, before the count, keeps the invariants. -/
theorem Inv.effect {i : Instr} {s u : State} (h : Inv s) (hi : nextInstr s = some i) (hu : Effect i s u) :
    Inv u := by
  obtain ⟨hp, -⟩ := (nextInstr_eq_some s i).1 hi
  have hadv : Inv s.advance := h.advance hp
  have hpc : s.pc + 1 ≤ max s.cfg.memWords (s.cfg.opBase - 1) := hadv.pc_le
  have hop := nextInstr_operand_le hi
  cases i with
  | read a =>
    obtain ⟨v, rest, -, ha, hv, rfl⟩ := hu
    exact (hadv.setWord ha hv).frame _ _ _ rest _ _
  | store a =>
    obtain ⟨ha, hv, rfl⟩ := hu
    exact hadv.setWord ha hv
  | write a =>
    obtain ⟨-, rfl⟩ := hu
    exact hadv.frame _ _ _ _ _ _
  | divide a =>
    obtain ⟨-, -, rfl⟩ := hu
    exact hadv.setAcc _
  | load a | add a | subtract a | multiply a =>
    obtain ⟨-, rfl⟩ := hu
    exact hadv.setAcc _
  | branch a =>
    cases hu
    exact h.setPc hop
  | branchneg a | branchzero a =>
    cases hu
    refine h.setPc ?_
    split_ifs
    · exact hop
    · exact hpc
  | halt a => exact hu.elim

theorem Inv.execAbort {i : Instr} {s t : State} (h : Inv s) (hp : s.pc < s.cfg.memWords) (ht : ExecAbort i s t) :
    Inv t := by
  obtain ⟨c, hc, x, inp, rfl, -⟩ := ht
  have hne : c ≠ .none := by rintro rfl; simp at hc
  exact ((h.advance hp).raiseAbort hne x).frame _ _ _ inp _ _

/-- Running the instruction at `PC` keeps the invariants. -/
theorem Inv.exec {i : Instr} {s t : State} (h : Inv s) (hs : s.terminal = false) (hi : nextInstr s = some i)
    (ht : exec i s = .next t) : Inv t := by
  obtain ⟨hp, -⟩ := (nextInstr_eq_some s i).1 hi
  rcases exec_cases hs ht with ⟨a, -, -, rfl⟩ | hab | ⟨a, -, rfl⟩ | ⟨u, hu, rfl⟩
  · exact h
  · exact h.execAbort hp hab
  · exact (h.advance hp).signalHalt hs
  · have hut : u.terminal = false := by rw [State.terminal, hu.rs_eq]; exact hs
    exact ((h.effect hi hu).running hut).count rfl

theorem decodeCause_ne_none (e : DecodeError) : decodeCause e ≠ .none := by
  cases e <;> decide

theorem Inv.step {s t : State} (h : Inv s) (ht : step s = .next t) : Inv t := by
  obtain ⟨-, ⟨-, rfl⟩ | ⟨-, -, rfl⟩ | ⟨hs, hp, e, -, rfl⟩ | ⟨hs, i, hi, hx⟩⟩ := step_cases ht
  · exact h
  · exact h.raiseAbort (by decide) _
  · rw [State.start_advance s hs]
    exact ((h.running hs).advance hp).raiseAbort (decodeCause_ne_none e) _
  · exact h.exec hs hi hx

/-! ### The host's events -/

theorem Inv.hostWrite {s : State} (h : Inv s) (a : Int) (v : PortValue) : Inv (hostWrite a v s).2 := by
  rcases hostWrite_state_cases a v s with e | ⟨w, ⟨h0, hN⟩, hw, e⟩ <;> rw [e]
  · exact h
  · exact h.setWord (by omega) hw

theorem Inv.hostLoad {s : State} (h : Inv s) (items : List LoadEntry) : Inv (hostLoad items s).2 :=
  hostLoad_keeps Inv (fun _ _ _ ht ha hv => ht.setWord ha hv) items s h

theorem Inv.beginRun {s : State} (h : Inv s) (resume : Bool) : Inv (beginRun resume s) := by
  cases resume with
  | true => exact h.frame _ _ _ _ _ _
  | false => exact h.boot.frame _ _ _ _ _ _

theorem Inv.react {e : Event} {s t : State} {r : Reply} (h : Inv s) (ht : react e s = .next (r, t)) : Inv t := by
  rcases react_cases ht with ⟨b, -, rfl⟩ | ⟨-, rfl⟩ | ⟨-, u, p, hu, rfl⟩ | ⟨p, q, i, rfl, -, -⟩ |
    ⟨m, rfl, ⟨a, v, -, hm⟩ | rfl | ⟨items, hm⟩⟩
  · exact h.beginRun b
  · exact h.boot
  · exact (h.step hu).frame _ _ _ _ _ _
  · exact h.frame _ _ _ _ _ _
  · rw [hm]; exact h.hostWrite a v
  · exact h.clearMem
  · rw [hm]; exact h.hostLoad items

/-- Settles O29: the invariant is carried through `step_cases` and `react_cases`, one lemma per update of the state. -/
theorem stepsAndEventsKeepInvariants : Obligations.StepsAndEventsKeepInvariants :=
  ⟨fun _ _ h ht => h.step ht, fun _ h => h.boot, fun _ _ _ _ h ht => h.react ht⟩

/-! ### Who moves the halted flag -/

/-- In a terminal state the model's step answers the state itself (log 7). -/
theorem step_eq_self_of_terminal {s t : State} (hs : s.terminal = true) (h : step s = .next t) : t = s := by
  obtain ⟨-, ⟨-, e⟩ | ⟨hf, -⟩ | ⟨hf, -⟩ | ⟨hf, -⟩⟩ := step_cases h
  · exact e
  all_goals exact absurd hs (by simp [hf])

/-- An instruction that leaves the core `HALTED` is a HALT. -/
theorem exec_halted {i : Instr} {s t : State} (hs : s.terminal = false) (h : exec i s = .next t)
    (ht : t.rs = .halted) : ∃ a, i = .halt a := by
  rcases exec_cases hs h with ⟨a, -, -, rfl⟩ | ⟨c, -, x, inp, rfl, -⟩ | ⟨a, hi, -⟩ | ⟨u, -, rfl⟩
  · simp [State.terminal, ht] at hs
  · cases ht
  · exact ⟨a, hi⟩
  · rw [State.count_rs] at ht
    split_ifs at ht

/-- A step that makes the core `HALTED` executes a HALT (10_state.md R21). -/
theorem step_sets_halted {s t : State} (h : step s = .next t) (hs : s.rs ≠ .halted) (ht : t.rs = .halted) :
    ∃ a, nextInstr s = some (.halt a) := by
  obtain ⟨-, ⟨-, rfl⟩ | ⟨-, -, rfl⟩ | ⟨-, -, e, -, rfl⟩ | ⟨hf, i, hi, hx⟩⟩ := step_cases h
  · exact absurd ht hs
  · cases ht
  · cases ht
  · obtain ⟨a, rfl⟩ := exec_halted hf hx ht
    exact ⟨a, hi⟩

/-- What an event does to `RS`: a boot, alone or at the start of `run(false)`, makes it `READY`; single_step and a pass of the run
loop may take a step; every other event leaves it. -/
theorem react_rs_cases {e : Event} {s t : State} {r : Reply} (h : react e s = .next (r, t)) :
    ((e = .boot ∨ e = .run false) ∧ t.rs = .ready) ∨
    ((e = .singleStep ∨ e = .proceed) ∧ ∃ u, step s = .next u ∧ t.rs = u.rs) ∨
    t.rs = s.rs := by
  rcases react_cases h with ⟨b, rfl, rfl⟩ | ⟨rfl, rfl⟩ | ⟨he, u, p, hu, rfl⟩ | ⟨p, q, i, rfl, -, -⟩ | ⟨m, rfl, -⟩
  · cases b with
    | true => exact .inr (.inr rfl)
    | false => exact .inl ⟨.inr rfl, rfl⟩
  · exact .inl ⟨.inl rfl, rfl⟩
  · exact .inr (.inl ⟨he, u, hu, rfl⟩)
  · exact .inr (.inr rfl)
  · exact .inr (.inr rfl)

/-- An event that makes the core `HALTED` takes a step that executes a HALT. -/
theorem react_sets_halted {e : Event} {s t : State} {r : Reply} (h : react e s = .next (r, t)) (hs : s.rs ≠ .halted)
    (ht : t.rs = .halted) : (e = .singleStep ∨ e = .proceed) ∧ ∃ a, nextInstr s = some (.halt a) := by
  rcases react_rs_cases h with ⟨-, hr⟩ | ⟨he, u, hu, hr⟩ | hr <;> rw [hr] at ht
  · cases ht
  · exact ⟨he, step_sets_halted hu hs ht⟩
  · exact absurd ht hs

/-- An event that takes the core out of `HALTED` boots: a step of a halted core leaves it as it is. -/
theorem react_clears_halted {e : Event} {s t : State} {r : Reply} (h : react e s = .next (r, t)) (hs : s.rs = .halted)
    (ht : t.rs ≠ .halted) : e = .boot ∨ e = .run false := by
  rcases react_rs_cases h with ⟨he, -⟩ | ⟨-, u, hu, hr⟩ | hr
  · exact he
  · have hus : u = s := step_eq_self_of_terminal ((State.terminal_eq_true s).2 (.inl hs)) hu
    exact absurd (by rw [hr, hus, hs]) ht
  · exact absurd (hr.trans hs) ht

/-- Settles O34: `step_cases` and `react_cases` leave a HALT as the one way in, and a boot as the one way out. -/
theorem haltedSetOnlyByHaltClearedOnlyByBoot : Obligations.HaltedSetOnlyByHaltClearedOnlyByBoot := by
  refine ⟨State.halted_eq_true, fun s t h hs ht => ?_, fun e s t r h hs ht => ?_, fun s c i => rfl,
    fun e s t r h hs ht => ?_⟩
  · exact step_sets_halted h ((State.halted_eq_false s).1 hs) ((State.halted_eq_true t).1 ht)
  · exact react_sets_halted h ((State.halted_eq_false s).1 hs) ((State.halted_eq_true t).1 ht)
  · exact react_clears_halted h ((State.halted_eq_true s).1 hs) ((State.halted_eq_false t).1 ht)

end Sys2Proof.Machine
end

section
/-! SUPPORT. The host's memory port (20_memory.md R44 to R47): what each of its four operations answers and leaves in memory when no
run is active. -/

namespace Sys2Proof.Machine

/-! ### The port between runs -/

/-- With no run active a port operation has its transition (20_memory.md R48). -/
theorem atPort_of_idle {s : State} (h : s.runPhase = .idle) (r : PortReply × State) :
    atPort r s = .next (.port r.1, r.2) := by
  simp [atPort, State.runActive, h]

theorem react_hostRead {s : State} (h : s.runPhase = .idle) (a : Int) :
    react (.hostRead a) s = .next (.port (hostRead a s), s) :=
  atPort_of_idle h _

theorem react_hostWrite {s : State} (h : s.runPhase = .idle) (a : Int) (v : PortValue) :
    react (.hostWrite a v) s = .next (.port (hostWrite a v s).1, (hostWrite a v s).2) :=
  atPort_of_idle h _

theorem react_hostClear {s : State} (h : s.runPhase = .idle) :
    react .hostClear s = .next (.port .ok, { s with mem := [] }) :=
  atPort_of_idle h _

theorem react_hostLoad {s : State} (h : s.runPhase = .idle) (items : List LoadEntry) :
    react (.hostLoad items) s = .next (.port (hostLoad items s).1, (hostLoad items s).2) :=
  atPort_of_idle h _

theorem State.not_hostAddress {s : State} {a : Int} (h : a < 0 ∨ (s.cfg.memWords : Int) ≤ a) : ¬ s.hostAddress a := by
  rintro ⟨h0, hN⟩
  omega

/-! ### HostRead and HostClear -/

/-- Settles O45: the two branches of `hostRead`, through the port of an idle machine. -/
theorem hostReadOperation : Obligations.HostReadOperation := by
  intro s a hs
  rw [react_hostRead hs]
  refine ⟨fun h0 hN => ?_, fun hout => ?_⟩
  · rw [hostRead, if_pos ⟨h0, hN⟩]
  · rw [hostRead, if_neg (State.not_hostAddress hout)]

/-- Settles O47: the memory it leaves lists no word, so that every address reads the power-on zero. -/
theorem hostClearOperation : Obligations.HostClearOperation :=
  fun _ hs => ⟨[], react_hostClear hs, Memory.read_nil⟩

/-! ### HostWrite -/

/-- `v` gives the integer `u` to write: it is `u`, or a text that parses to `u` (20_memory.md R45). -/
def PortValue.Gives (c : Config) (v : PortValue) (u : Int) : Prop :=
  v = .int u ∨ ∃ t, v = .text t ∧ parseWord c t = .ok u

theorem hostWrite_outside {s : State} {a : Int} (h : ¬ s.hostAddress a) (v : PortValue) :
    hostWrite a v s = (.addressError, s) := if_neg h

theorem hostWrite_text_not_word {s : State} {a : Int} (h : s.hostAddress a) {t : List Char}
    (ht : ∀ u, parseWord s.cfg t ≠ .ok u) : hostWrite a (.text t) s = (.formatError, s) := by
  rw [hostWrite, if_pos h]
  cases hp : parseWord s.cfg t with
  | error e => rfl
  | ok u => exact absurd hp (ht u)

theorem hostWrite_of_gives {s : State} {a : Int} (h : s.hostAddress a) {v : PortValue} {u : Int}
    (hv : v.Gives s.cfg u) : hostWrite a v s = hostWriteInt a.toNat u s := by
  unfold hostWrite
  rw [if_pos h]
  rcases hv with rfl | ⟨t, rfl, ht⟩
  · rfl
  · simp only [ht]

/-- Settles O46: the address check, then the text, then the one word of `hostWriteInt`, read back by the laws of memory. -/
theorem hostWriteOperation : Obligations.HostWriteOperation := by
  intro s a v hs hwf
  rw [react_hostWrite hs]
  refine ⟨fun hout => ?_, fun h0 hN => ?_⟩
  · rw [hostWrite_outside (State.not_hostAddress hout)]
  · have ha : s.hostAddress a := ⟨h0, hN⟩
    refine ⟨fun t hv ht => ?_, fun u hv => ?_⟩
    · rw [hv, hostWrite_text_not_word ha ht]
    · rw [hostWrite_of_gives ha hv]
      rcases hostWriteInt_cases a.toNat u s with ⟨hu, e⟩ | ⟨hu, e⟩ <;> rw [e]
      · exact ⟨fun hn => absurd hu hn, fun _ => ⟨s.mem.write a.toNat u, rfl, Memory.read_write_same _ _ _ hwf,
          fun b hb => Memory.read_write_other _ _ _ _ hb⟩⟩
      · exact ⟨fun _ => rfl, fun hi => absurd hi hu⟩

/-! ### HostLoad -/

/-- Consecutive words written from address `i` on. -/
def Memory.writeFrom (m : Memory) (i : Nat) : List Int → Memory
  | [] => m
  | v :: rest => Memory.writeFrom (m.write i v) (i + 1) rest

/-- Words written from `i` on leave the addresses below `i`, and those from the end of the words on. -/
theorem Memory.read_writeFrom_outside {i b : Nat} (l : List Int) (m : Memory) (h : b < i ∨ i + l.length ≤ b) :
    (m.writeFrom i l).read b = m.read b := by
  induction l generalizing i m with
  | nil => rfl
  | cons v rest ih =>
    rw [List.length_cons] at h
    calc ((m.write i v).writeFrom (i + 1) rest).read b
        = (m.write i v).read b := ih _ (by omega)
      _ = m.read b := read_write_other _ _ _ _ (by omega)

/-- The word with index `j` of those written from `i` on stands at address `i + j`. -/
theorem Memory.read_writeFrom_inside {i j : Nat} {v : Int} (l : List Int) (m : Memory) (hm : Memory.wf m)
    (h : l[j]? = some v) : (m.writeFrom i l).read (i + j) = v := by
  induction l generalizing i j m with
  | nil => simp at h
  | cons w rest ih =>
    cases j with
    | zero =>
      obtain rfl : w = v := by simpa using h
      calc ((m.write i w).writeFrom (i + 1) rest).read i
          = (m.write i w).read i := read_writeFrom_outside _ _ (.inl (Nat.lt_succ_self i))
        _ = w := read_write_same _ _ _ hm
    | succ j =>
      rw [show i + (j + 1) = i + 1 + j by omega]
      exact ih _ (write_wf _ _ _ hm) (by simpa using h)

/-- The word an entry leaves in memory when the load goes on after it: its own, or the zero word (20_memory.md R47). -/
def LoadEntry.loaded : LoadEntry → Int
  | .word v => v
  | .malformed => 0

/-- The load goes on after every one of `items`: each word is in range, and a malformed entry occurs under `ZERO_AND_CONTINUE` only. -/
def Loadable (c : Config) (items : List LoadEntry) : Prop :=
  (∀ v, LoadEntry.word v ∈ items → c.InWord v) ∧ (c.loadPolicy = .zeroAndContinue ∨ LoadEntry.malformed ∉ items)

theorem Loadable.of_subset {c : Config} {items part : List LoadEntry} (h : Loadable c items) (hs : part ⊆ items) :
    Loadable c part := by
  obtain ⟨hw, hp⟩ := h
  exact ⟨fun v hv => hw v (hs hv), hp.imp_right fun hm hmem => hm (hs hmem)⟩

/-- One pass of the load's loop over an entry after which it goes on. -/
theorem loadFrom_cons_loadable {s : State} {e : LoadEntry} (h : Loadable s.cfg [e]) (rest : List LoadEntry) (i : Nat) :
    loadFrom i (e :: rest) s = loadFrom (i + 1) rest (s.setWord i e.loaded) := by
  obtain ⟨hw, hp⟩ := h
  cases e with
  | word v =>
    have hv : s.cfg.InWord v := hw v (by simp)
    simp only [loadFrom, LoadEntry.value, if_pos hv, LoadEntry.loaded]
  | malformed =>
    have hz : s.cfg.loadPolicy = .zeroAndContinue := hp.resolve_right (by simp)
    simp only [loadFrom, LoadEntry.value, hz, LoadEntry.loaded]

/-- The load's loop over entries after which it goes on: it writes their words and comes to the entries that follow. -/
theorem loadFrom_append {pre : List LoadEntry} {s : State} (h : Loadable s.cfg pre) (rest : List LoadEntry) (i : Nat) :
    loadFrom i (pre ++ rest) s =
      loadFrom (i + pre.length) rest { s with mem := s.mem.writeFrom i (pre.map LoadEntry.loaded) } := by
  induction pre generalizing i s with
  | nil => rfl
  | cons e pre ih =>
    have htail : Loadable (s.setWord i e.loaded).cfg pre := h.of_subset (List.subset_cons_self e pre)
    calc loadFrom i (e :: (pre ++ rest)) s
        = loadFrom (i + 1) (pre ++ rest) (s.setWord i e.loaded) :=
          loadFrom_cons_loadable (h.of_subset (by simp)) _ _
      _ = loadFrom (i + 1 + pre.length) rest
            { s with mem := (s.mem.write i e.loaded).writeFrom (i + 1) (pre.map LoadEntry.loaded) } := ih htail _
      _ = loadFrom (i + (e :: pre).length) rest
            { s with mem := s.mem.writeFrom i ((e :: pre).map LoadEntry.loaded) } := by
          rw [List.length_cons, Nat.add_right_comm, Nat.add_assoc]; rfl

/-- The word of each loaded entry stands at the entry's index. -/
theorem Memory.read_writeFrom_loaded {m : Memory} (hm : Memory.wf m) {items : List LoadEntry} {i : Nat} {e : LoadEntry}
    (h : items[i]? = some e) : (m.writeFrom 0 (items.map LoadEntry.loaded)).read i = e.loaded := by
  have hv : (items.map LoadEntry.loaded)[i]? = some e.loaded := by rw [List.getElem?_map, h, Option.map_some]
  simpa using read_writeFrom_inside (i := 0) _ m hm hv

theorem hostLoad_too_long {s : State} {items : List LoadEntry} (h : s.cfg.memWords < items.length) :
    hostLoad items s = (.rangeError, s) := if_pos h

theorem hostLoad_of_fits {s : State} {items : List LoadEntry} (h : items.length ≤ s.cfg.memWords) :
    hostLoad items s = loadFrom 0 items s := if_neg (Nat.not_lt.2 h)

/-- A load with no entry that stops it writes the words of all entries. -/
theorem hostLoad_of_loadable {s : State} {items : List LoadEntry} (hN : items.length ≤ s.cfg.memWords)
    (h : Loadable s.cfg items) :
    hostLoad items s = (.ok, { s with mem := s.mem.writeFrom 0 (items.map LoadEntry.loaded) }) := by
  have hload := loadFrom_append h [] 0
  rw [List.append_nil] at hload
  rw [hostLoad_of_fits hN, hload, loadFrom]

/-- Under `ABORT` the first malformed entry ends the load, with the words before it written. -/
theorem hostLoad_abort {s : State} {items : List LoadEntry} {k : Nat} (hN : items.length ≤ s.cfg.memWords)
    (ha : s.cfg.loadPolicy = .abort) (hk : items[k]? = some .malformed) (h : Loadable s.cfg (items.take k)) :
    hostLoad items s =
      (.formatErrorAt k, { s with mem := s.mem.writeFrom 0 ((items.take k).map LoadEntry.loaded) }) := by
  obtain ⟨hlt, he⟩ := List.getElem?_eq_some_iff.1 hk
  have hsplit : items = items.take k ++ .malformed :: items.drop (k + 1) := by
    rw [← he, ← List.drop_eq_getElem_cons hlt, List.take_append_drop]
  have hlen : 0 + (items.take k).length = k := by rw [List.length_take]; omega
  have hload := loadFrom_append h (.malformed :: items.drop (k + 1)) 0
  rw [← hsplit, hlen] at hload
  rw [hostLoad_of_fits hN, hload]
  simp only [loadFrom, LoadEntry.value, ha]

/-- Settles O48: the load writes the words of the entries before the one that stops it, read back by the laws of `writeFrom`. -/
theorem hostLoadOperation : Obligations.HostLoadOperation := by
  intro s items hs hwf hw
  rw [react_hostLoad hs]
  refine ⟨fun hlong => ?_, fun hN => ⟨fun hgo => ?_, fun k ha hk hfirst => ?_⟩⟩
  · rw [hostLoad_too_long hlong]
  · rw [hostLoad_of_loadable hN ⟨hw, hgo⟩]
    exact ⟨_, rfl, fun _ _ he => Memory.read_writeFrom_loaded hwf he, fun _ he => Memory.read_writeFrom_loaded hwf he,
      fun i hi => Memory.read_writeFrom_outside _ _ (.inr (by simpa using hi))⟩
  · have hpre : Loadable s.cfg (items.take k) := ⟨fun v hv => hw v (List.mem_of_mem_take hv), .inr hfirst⟩
    rw [hostLoad_abort hN ha hk hpre]
    refine ⟨_, rfl, fun i v hi he => ?_, fun i hi => ?_⟩
    · exact Memory.read_writeFrom_loaded hwf (by rw [List.getElem?_take_of_lt hi, he])
    · exact Memory.read_writeFrom_outside _ _ (.inr (by rw [List.length_map, List.length_take]; omega))

end Sys2Proof.Machine
end

section
/-! SUPPORT. The decode table of 30_encoding.md R67 as what a step does with the fetched word, and the encoding of a listing line
(R69). -/

namespace Sys2Proof

/-! ### The operator table -/

/-- The operator table of 30_encoding.md R63 as data: each operator beside the instruction that it names. -/
def operatorTable : List (Nat × (Nat → Instr)) :=
  [(10, .read), (11, .write), (20, .load), (21, .store), (30, .add), (31, .subtract),
    (32, .divide), (33, .multiply), (40, .branch), (41, .branchneg), (42, .branchzero), (43, .halt)]

/-- Every row of the table agrees with the encoder's reading of the instruction. -/
theorem operatorTable_sound : ∀ r ∈ operatorTable, ∀ a, (r.2 a).operator = r.1 ∧ (r.2 a).operand = a := by
  simp [operatorTable, Instr.operator, Instr.operand]

/-- No instruction has an operator outside the table's twelve (30_encoding.md R64). -/
theorem Instr.operator_mem (i : Instr) : (i.operator : Int) ∈ [(10 : Int), 11, 20, 21, 30, 31, 32, 33, 40, 41, 42, 43] := by
  cases i <;> simp [Instr.operator]

/-! ### The fields of a word, in the integer arithmetic of the spec -/

theorem ediv_eq_operatorField (c : Config) (n : Nat) : (n : Int) / 10 ^ (c.wordDigits - 2) = operatorField c n := by
  simp [operatorField, Config.opBase, Config.operandDigits]

theorem emod_eq_operandField (c : Config) (n : Nat) : (n : Int) % 10 ^ (c.wordDigits - 2) = operandField c n := by
  simp [operandField, Config.opBase, Config.operandDigits]

theorem Config.coe_minInstr (c : Config) : (c.minInstr : Int) = 10 ^ (c.wordDigits - 1) := by
  simp [Config.minInstr]

/-! ### The four rows of the decode table (30_encoding.md R67) -/

theorem decode_negative {c : Config} {w : Int} (h : w < 0) : decode c w = .error .negativeOperation := if_pos h

theorem decode_too_small {c : Config} {w : Int} (h0 : 0 ≤ w) (hT : w < c.minInstr) :
    decode c w = .error .operationTooSmall := by
  rw [decode, if_neg (not_lt.2 h0), if_pos hT]

/-- From the threshold on, a word whose fields are those of an instruction decodes to it. -/
theorem decode_of_fields {c : Config} {n : Nat} {i : Instr} (hT : c.minInstr ≤ n) (hop : operatorField c n = i.operator)
    (ha : operandField c n = i.operand) : decode c n = .ok i :=
  (decode_eq_ok c n i).2 ⟨Int.ofNat_le.2 hT, (instrOf_eq_some _ _ _).2 ⟨hop.symm, ha.symm⟩⟩

/-- From the threshold on, a word with the operator of no instruction is an invalid operator. -/
theorem decode_invalid {c : Config} {n : Nat} (hT : c.minInstr ≤ n) (hop : ∀ i : Instr, i.operator ≠ operatorField c n) :
    decode c n = .error .invalidOperator := by
  have hnone : instrOf (operatorField c n) (operandField c n) = none := by
    cases h : instrOf (operatorField c n) (operandField c n) with
    | none => rfl
    | some i => exact absurd ((instrOf_eq_some _ _ _).1 h).1 (hop i)
  rw [decode, if_neg (by omega), if_neg (by omega), Int.toNat_natCast, hnone]

/-! ### Encoding a listing line -/

/-- Settles O5: the row of the table gives the operator and the operand, and `assemble` is the check that the operand fits. -/
theorem assembleEncodesListingLine : Obligations.AssembleEncodesListingLine := by
  intro c a op i h
  obtain ⟨hop, ha⟩ := operatorTable_sound _ h a
  have hfit : (i a).WellFormed c ↔ a < 10 ^ (c.wordDigits - 2) := by rw [Instr.WellFormed, ha]; rfl
  refine ⟨fun hlt => ?_, fun hge => ?_⟩
  · rw [assemble, if_pos (hfit.2 hlt), encode, hop, ha]
    simp [Config.opBase, Config.operandDigits]
  · rw [assemble, if_neg (hfit.not.2 (Nat.not_lt.2 hge))]

end Sys2Proof

namespace Sys2Proof.Machine

/-! ### The step at a fetched word -/

/-- A fetched word that does not decode: `PC` is advanced and the abort names the word (40_cycle.md R75, R76). -/
theorem step_of_decode_error {s : State} {w : Int} {e : DecodeError} (hv : s.cfg.Valid) (ht : s.terminal = false)
    (hp : s.pc < s.cfg.memWords) (hw : w = s.mem.read s.pc) (hd : decode s.cfg w = .error e) :
    step s = .next { s with pc := s.pc + 1, rs := .aborted, cause := decodeCause e, info := w } := by
  have hf : fetch s = .ok w := hw ▸ if_pos hp
  simp [step, cycle, hv, ht, hf, hd, State.start_advance s ht, State.raiseAbort]

/-- A fetched word that decodes: the step is the instruction's (40_cycle.md R77, R80). -/
theorem step_of_decode_ok {s : State} {w : Int} {i : Instr} (hv : s.cfg.Valid) (ht : s.terminal = false)
    (hp : s.pc < s.cfg.memWords) (hw : w = s.mem.read s.pc) (hd : decode s.cfg w = .ok i) : step s = exec i s := by
  have hf : fetch s = .ok w := hw ▸ if_pos hp
  simp [step, cycle, hv, ht, hf, hd]

/-- Settles O3: each row of the decode table gives what `decode` answers, and the step follows the answer. -/
theorem stepClassifiesFetchedWord : Obligations.StepClassifiesFetchedWord := by
  intro s w hv ht hp hw _
  rw [← s.cfg.coe_minInstr]
  refine ⟨fun hneg => ?_, fun h0 hlt => ?_, fun op i hi hge hop => ?_, fun hge hop => ?_⟩
  · exact step_of_decode_error hv ht hp hw (decode_negative hneg)
  · exact step_of_decode_error hv ht hp hw (decode_too_small h0 hlt)
  · lift w to Nat using by omega with n
    obtain ⟨⟨k, j⟩, hrow, heq⟩ : ∃ r ∈ operatorTable, ((r.1 : Int), r.2) = (op, i) := List.mem_map.1 hi
    cases heq
    rw [ediv_eq_operatorField, Int.ofNat_inj] at hop
    rw [emod_eq_operandField, Int.toNat_natCast]
    obtain ⟨hoperator, hoperand⟩ := operatorTable_sound _ hrow (operandField s.cfg n)
    exact step_of_decode_ok hv ht hp hw
      (decode_of_fields (Int.ofNat_le.1 hge) (hop.trans hoperator.symm) hoperand.symm)
  · lift w to Nat using by omega with n
    rw [ediv_eq_operatorField] at hop
    have hnone : ∀ i : Instr, i.operator ≠ operatorField s.cfg n := fun i e => hop (e ▸ i.operator_mem)
    exact step_of_decode_error hv ht hp hw (decode_invalid (Int.ofNat_le.1 hge) hnone)

end Sys2Proof.Machine
end

section
/-! SUPPORT. The Word Codec (30_encoding.md R54 to R57): digit texts and their values, which texts parse and to what, and what a value
formats to. -/

namespace Sys2Proof.Machine

/-! ### Digits -/

theorem isDigit_iff_toNat (ch : Char) : isDigit ch = true ↔ 48 ≤ ch.toNat ∧ ch.toNat ≤ 57 := by
  simp [isDigit]

theorem isDigit_iff (ch : Char) : isDigit ch = true ↔ '0' ≤ ch ∧ ch ≤ '9' := isDigit_iff_toNat ch

theorem toNat_digitChar {d : Nat} (h : d < 10) : (digitChar d).toNat = 48 + d := by
  rw [digitChar, Char.toNat_ofNat, if_pos (.inl (by omega))]

theorem isDigit_digitChar {d : Nat} (h : d < 10) : isDigit (digitChar d) = true := by
  rw [isDigit_iff_toNat, toNat_digitChar h]
  omega

theorem digitValue_digitChar {d : Nat} (h : d < 10) : digitValue (digitChar d) = d := by
  rw [digitValue, toNat_digitChar h, Nat.add_sub_cancel_left]

theorem digitValue_lt {ch : Char} (h : isDigit ch = true) : digitValue ch < 10 := by
  rw [isDigit_iff_toNat] at h
  unfold digitValue
  omega

theorem digitChar_digitValue {ch : Char} (h : isDigit ch = true) : digitChar (digitValue ch) = ch := by
  obtain ⟨h48, -⟩ := (isDigit_iff_toNat ch).1 h
  rw [digitChar, digitValue, Nat.add_sub_cancel' h48, Char.ofNat_toNat]

/-! ### Digit texts and their values (30_encoding.md R54) -/

/-- `ds` is a text of `k` decimal digits. -/
def IsDigits (k : Nat) (ds : List Char) : Prop := ds.length = k ∧ ∀ d ∈ ds, isDigit d = true

theorem isDigits_iff {k : Nat} {ds : List Char} : IsDigits k ds ↔ ds.length = k ∧ ∀ d ∈ ds, '0' ≤ d ∧ d ≤ '9' := by
  simp only [IsDigits, isDigit_iff]

theorem isDigits_append_singleton {k : Nat} {ds : List Char} {ch : Char} :
    IsDigits k (ds ++ [ch]) ↔ ∃ j, k = j + 1 ∧ IsDigits j ds ∧ isDigit ch = true := by
  constructor
  · rintro ⟨rfl, h⟩
    exact ⟨ds.length, by simp, ⟨rfl, fun d hd => h d (by simp [hd])⟩, h ch (by simp)⟩
  · rintro ⟨j, rfl, ⟨rfl, h⟩, hch⟩
    exact ⟨by simp, by simpa [or_imp, forall_and] using ⟨h, hch⟩⟩

theorem isDigits_replicate_zero (k : Nat) : IsDigits k (List.replicate k '0') :=
  ⟨List.length_replicate, fun d hd => by rw [List.eq_of_mem_replicate hd]; decide⟩

@[simp] theorem valueOf_nil : valueOf [] = 0 := rfl

@[simp] theorem valueOf_append_singleton (ds : List Char) (ch : Char) :
    valueOf (ds ++ [ch]) = 10 * valueOf ds + digitValue ch := by
  simp [valueOf]

/-- The model's value of a text is Mathlib's, which reads the least significant digit first. -/
theorem valueOf_eq_ofDigits (ds : List Char) :
    valueOf ds = Nat.ofDigits 10 (ds.reverse.map (fun d => d.toNat - 48)) := by
  induction ds using List.reverseRecOn with
  | nil => rfl
  | append_singleton ds ch ih =>
    rw [valueOf_append_singleton, List.reverse_concat, List.map_cons, Nat.ofDigits_cons, ih, Nat.add_comm]
    rfl

/-- A value has as many digits as its text. -/
theorem valueOf_lt {k : Nat} {ds : List Char} (h : IsDigits k ds) : valueOf ds < 10 ^ k := by
  induction ds using List.reverseRecOn generalizing k with
  | nil => exact Nat.pow_pos (by decide)
  | append_singleton ds ch ih =>
    obtain ⟨j, rfl, hds, hch⟩ := isDigits_append_singleton.1 h
    have hlt := ih hds
    have hd := digitValue_lt hch
    rw [valueOf_append_singleton, Nat.pow_succ]
    omega

/-- The digits of any number are a digit text. -/
theorem isDigits_digitsOf (k n : Nat) : IsDigits k (digitsOf k n) := by
  induction k generalizing n with
  | zero => exact ⟨rfl, by simp [digitsOf]⟩
  | succ k ih => exact isDigits_append_singleton.2 ⟨k, rfl, ih _, isDigit_digitChar (Nat.mod_lt _ (by decide))⟩

/-- The digits of a number that has at most `k` of them spell it. -/
theorem valueOf_digitsOf {k n : Nat} (h : n < 10 ^ k) : valueOf (digitsOf k n) = n := by
  induction k generalizing n with
  | zero => exact (Nat.lt_one_iff.1 h).symm
  | succ k ih =>
    have hdiv : n / 10 < 10 ^ k := Nat.div_lt_of_lt_mul (by rwa [← Nat.pow_succ'])
    rw [digitsOf, valueOf_append_singleton, ih hdiv, digitValue_digitChar (Nat.mod_lt _ (by decide))]
    omega

/-- The digits of the value of a digit text are the text. -/
theorem digitsOf_valueOf {k : Nat} {ds : List Char} (h : IsDigits k ds) : digitsOf k (valueOf ds) = ds := by
  induction ds using List.reverseRecOn generalizing k with
  | nil => obtain ⟨rfl, -⟩ := h; rfl
  | append_singleton ds ch ih =>
    obtain ⟨j, rfl, hds, hch⟩ := isDigits_append_singleton.1 h
    have hd := digitValue_lt hch
    have hdiv : (10 * valueOf ds + digitValue ch) / 10 = valueOf ds := by omega
    have hmod : (10 * valueOf ds + digitValue ch) % 10 = digitValue ch := by omega
    rw [valueOf_append_singleton, digitsOf, hdiv, hmod, ih hds, digitChar_digitValue hch]

theorem digitsOf_zero (k : Nat) : digitsOf k 0 = List.replicate k '0' := by
  induction k with
  | zero => rfl
  | succ k ih => rw [digitsOf, Nat.zero_div, ih, List.replicate_succ']; rfl

theorem valueOf_replicate_zero (k : Nat) : valueOf (List.replicate k '0') = 0 := by
  rw [← digitsOf_zero, valueOf_digitsOf (Nat.pow_pos (by decide))]

/-- A digit text with a digit other than zero has a value other than zero: zero has one text only. -/
theorem valueOf_pos {k : Nat} {ds : List Char} (h : IsDigits k ds) (hne : ∃ d ∈ ds, d ≠ '0') : 0 < valueOf ds := by
  refine Nat.pos_of_ne_zero fun h0 => ?_
  obtain ⟨d, hd, hd0⟩ := hne
  rw [← digitsOf_valueOf h, h0, digitsOf_zero] at hd
  exact hd0 (List.eq_of_mem_replicate hd)

/-! ### Parsing (30_encoding.md R55) -/

/-- The integer that a sign character and a magnitude spell. -/
def signed (sign : Char) (n : Nat) : Int := (if sign = '-' then -1 else 1) * n

@[simp] theorem signed_plus (n : Nat) : signed '+' n = n := one_mul _

@[simp] theorem signed_minus (n : Nat) : signed '-' n = -n := neg_one_mul _

theorem natAbs_signed (sign : Char) (n : Nat) : (signed sign n).natAbs = n := by
  unfold signed
  split_ifs <;> simp

/-- `t` is a word's text: a sign and `W` digits. -/
def IsWordText (c : Config) (t : List Char) (sign : Char) (ds : List Char) : Prop :=
  t = sign :: ds ∧ (sign = '+' ∨ sign = '-') ∧ IsDigits c.wordDigits ds

/-- Everything `parse` answers: the value of a word's text, or a FormatError on any other text. -/
theorem parseWord_cases (c : Config) (t : List Char) :
    (∃ sign ds, IsWordText c t sign ds ∧ parseWord c t = .ok (signed sign (valueOf ds))) ∨
    ((∀ sign ds, ¬ IsWordText c t sign ds) ∧ parseWord c t = .error .formatError) := by
  cases t with
  | nil => exact .inr ⟨fun _ _ ⟨ht, _⟩ => (nomatch ht), rfl⟩
  | cons sign ds =>
    simp only [parseWord, ite_not]
    split_ifs with hlen hsign hall hminus
    · exact .inl ⟨sign, ds, ⟨rfl, hsign, hlen, List.all_eq_true.1 hall⟩, by simp [signed, hminus]⟩
    · exact .inl ⟨sign, ds, ⟨rfl, hsign, hlen, List.all_eq_true.1 hall⟩, by simp [signed, hminus]⟩
    · exact .inr ⟨by rintro _ _ ⟨⟨⟩, -, -, hd⟩; exact hall (List.all_eq_true.2 hd), rfl⟩
    · exact .inr ⟨by rintro _ _ ⟨⟨⟩, hs, -⟩; exact hsign hs, rfl⟩
    · exact .inr ⟨by rintro _ _ ⟨⟨⟩, -, hk, -⟩; exact hlen hk, rfl⟩

theorem parseWord_of_isWordText {c : Config} {t : List Char} {sign : Char} {ds : List Char} (h : IsWordText c t sign ds) :
    parseWord c t = .ok (signed sign (valueOf ds)) := by
  rcases parseWord_cases c t with ⟨sign', ds', h', e⟩ | ⟨hno, -⟩
  · obtain ⟨rfl, rfl⟩ := List.cons.inj (h.1.symm.trans h'.1)
    exact e
  · exact absurd h (hno _ _)

/-- A value is in word range when its magnitude has at most `W` digits (00_scope.md R8). -/
theorem inWord_iff_natAbs_lt (c : Config) (v : Int) : c.InWord v ↔ v.natAbs < 10 ^ c.wordDigits := by
  have hpos : 0 < 10 ^ c.wordDigits := Nat.pow_pos (by decide)
  unfold Config.InWord Config.wmax
  omega

theorem inWord_signed {c : Config} {ds : List Char} (h : IsDigits c.wordDigits ds) (sign : Char) :
    c.InWord (signed sign (valueOf ds)) := by
  rw [inWord_iff_natAbs_lt, natAbs_signed]
  exact valueOf_lt h

/-- Settles O7: `parseWord_cases`, with the value read by Mathlib's `Nat.ofDigits`. -/
theorem parseAcceptsExactlyWordTexts : Obligations.ParseAcceptsExactlyWordTexts := by
  intro c t
  refine ⟨fun sign ds ht hlen hsign hds => ?_, fun hno => ?_, fun v hv => ?_⟩
  · rw [parseWord_of_isWordText ⟨ht, hsign, isDigits_iff.2 ⟨hlen, hds⟩⟩, signed, valueOf_eq_ofDigits]
  · rcases parseWord_cases c t with ⟨sign, ds, ⟨ht, hsign, hds⟩, -⟩ | ⟨-, e⟩
    · obtain ⟨hlen, hdig⟩ := isDigits_iff.1 hds
      exact absurd ⟨sign, ds, ht, hlen, hsign, hdig⟩ hno
    · exact e
  · rcases parseWord_cases c t with ⟨sign, ds, ⟨-, -, hds⟩, e⟩ | ⟨-, e⟩ <;> rw [e] at hv <;> cases hv
    exact inWord_signed hds sign

/-! ### Formatting (30_encoding.md R56) -/

/-- The sign character of a value; zero's is plus. -/
def signChar (v : Int) : Char := if v < 0 then '-' else '+'

theorem signChar_eq (v : Int) : signChar v = '+' ∨ signChar v = '-' := by
  unfold signChar
  split_ifs
  · exact .inr rfl
  · exact .inl rfl

theorem signed_signChar (v : Int) : signed (signChar v) v.natAbs = v := by
  unfold signChar
  split_ifs with h
  · rw [signed_minus]; omega
  · rw [signed_plus]; omega

theorem formatWord_of_inWord {c : Config} {v : Int} (h : c.InWord v) :
    formatWord c v = .ok (signChar v :: digitsOf c.wordDigits v.natAbs) := if_pos h

theorem formatWord_of_not_inWord {c : Config} {v : Int} (h : ¬ c.InWord v) : formatWord c v = .error .rangeError := if_neg h

/-- The value of a word's text formats to its digits, behind the sign of the value. -/
theorem formatWord_signed {c : Config} {ds : List Char} (h : IsDigits c.wordDigits ds) (sign : Char) :
    formatWord c (signed sign (valueOf ds)) = .ok (signChar (signed sign (valueOf ds)) :: ds) := by
  rw [formatWord_of_inWord (inWord_signed h sign), natAbs_signed, digitsOf_valueOf h]

/-- Settles O8: in word range the `W` digits spell the whole magnitude. -/
theorem formatGivesSignAndDigits : Obligations.FormatGivesSignAndDigits := by
  refine fun c v => ⟨fun h => ?_, formatWord_of_not_inWord⟩
  obtain ⟨hlen, hdig⟩ := isDigits_iff.1 (isDigits_digitsOf c.wordDigits v.natAbs)
  refine ⟨_, formatWord_of_inWord h, hlen, hdig, ?_⟩
  rw [← valueOf_eq_ofDigits, valueOf_digitsOf ((inWord_iff_natAbs_lt c v).1 h)]

/-! ### The round trips (30_encoding.md R57) -/

theorem parseWord_formatWord {c : Config} {v : Int} (h : c.InWord v) :
    ∃ t, formatWord c v = .ok t ∧ parseWord c t = .ok v := by
  refine ⟨_, formatWord_of_inWord h, ?_⟩
  rw [parseWord_of_isWordText ⟨rfl, signChar_eq v, isDigits_digitsOf _ _⟩,
    valueOf_digitsOf ((inWord_iff_natAbs_lt c v).1 h), signed_signChar]

/-- A word's text whose sign is that of its value is canonical: it is what its value formats to. -/
theorem formatWord_parseWord {c : Config} {sign : Char} {ds : List Char} (hs : sign = '+' ∨ sign = '-')
    (h : IsDigits c.wordDigits ds) (hc : signChar (signed sign (valueOf ds)) = sign) :
    ∃ v, parseWord c (sign :: ds) = .ok v ∧ formatWord c v = .ok (sign :: ds) :=
  ⟨_, parseWord_of_isWordText ⟨rfl, hs, h⟩, by rw [formatWord_signed h, hc]⟩

/-- Settles O6: a text with a plus sign is canonical, one with a minus sign is when its value is not zero. -/
theorem wordTextRoundTrip : Obligations.WordTextRoundTrip := by
  refine fun c => ⟨fun v => parseWord_formatWord, fun ds hlen hds => ?_, fun ds hlen hds hne => ?_, ?_, ?_⟩
  · refine formatWord_parseWord (.inl rfl) (isDigits_iff.2 ⟨hlen, hds⟩) ?_
    rw [signed_plus, signChar, if_neg (by omega)]
  · have hdig : IsDigits c.wordDigits ds := isDigits_iff.2 ⟨hlen, hds⟩
    have hpos := valueOf_pos hdig hne
    refine formatWord_parseWord (.inr rfl) hdig ?_
    rw [signed_minus, signChar, if_pos (by omega)]
  · rw [parseWord_of_isWordText ⟨rfl, .inr rfl, isDigits_replicate_zero _⟩, valueOf_replicate_zero]
    rfl
  · rw [formatWord_of_inWord c.inWord_zero, Int.natAbs_zero, digitsOf_zero]
    rfl

end Sys2Proof.Machine
end

section
/-! SUPPORT. The step of 40_cycle.md §2 to §4: the failed fetch (R74), and what each outcome of an enabled step leaves (R72, R78). -/

namespace Sys2Proof.Machine

/-! ### The fetch (R74) -/

theorem fetch_inside {s : State} (hp : s.pc < s.cfg.memWords) : fetch s = .ok (s.mem.read s.pc) := if_pos hp

theorem fetch_outside {s : State} (hp : s.cfg.memWords ≤ s.pc) :
    fetch s = .error (s.raiseAbort .addressErrorFetch s.pc) := if_neg (Nat.not_lt.2 hp)

/-- A failed fetch ends the step before the start phase and the advance. -/
theorem step_of_fetch_outside {s : State} (hv : s.cfg.Valid) (ht : s.terminal = false) (hp : s.cfg.memWords ≤ s.pc) :
    step s = .next (s.raiseAbort .addressErrorFetch s.pc) := by
  simp [step, cycle, hv, ht, fetch_outside hp]

/-- Settles O10: the two answers of the fetch; the step hands on the failed one. -/
theorem fetchReadsOrAborts : Obligations.FetchReadsOrAborts :=
  fun _ => ⟨fetch_inside, step_of_fetch_outside⟩

/-! ### What an instruction's own effect leaves to the count -/

/-- No instruction's effect touches the budget or the abort registers: only the count and an abort do (R79, R81). -/
theorem Effect.budget_and_cause_eq {i : Instr} {s u : State} (h : Effect i s u) :
    u.sr = s.sr ∧ u.cause = s.cause ∧ u.info = s.info := by
  cases i with
  | read a => obtain ⟨v, rest, -, -, -, rfl⟩ := h; exact ⟨rfl, rfl, rfl⟩
  | store a | divide a => obtain ⟨-, -, rfl⟩ := h; exact ⟨rfl, rfl, rfl⟩
  | write a | load a | add a | subtract a | multiply a => obtain ⟨-, rfl⟩ := h; exact ⟨rfl, rfl, rfl⟩
  | branch a | branchneg a | branchzero a => cases h; exact ⟨rfl, rfl, rfl⟩
  | halt a => exact h.elim

/-- An instruction's effect leaves `PC` advanced, or at the target of a branch (R75, 44_control.md R96 to R98). -/
theorem Effect.pc_cases {i : Instr} {s u : State} (h : Effect i s u) :
    u.pc = s.pc + 1 ∨
    (u.pc = i.operand ∧ i ∈ [Instr.branch i.operand, .branchneg i.operand, .branchzero i.operand]) := by
  cases i with
  | read a => obtain ⟨v, rest, -, -, -, rfl⟩ := h; exact .inl rfl
  | store a | divide a => obtain ⟨-, -, rfl⟩ := h; exact .inl rfl
  | write a | load a | add a | subtract a | multiply a => obtain ⟨-, rfl⟩ := h; exact .inl rfl
  | branch a => cases h; exact .inr ⟨rfl, by simp [Instr.operand]⟩
  | branchneg a =>
    cases h
    by_cases hn : s.accNegative = true
    · exact .inr ⟨if_pos hn, by simp [Instr.operand]⟩
    · exact .inl (if_neg hn)
  | branchzero a =>
    cases h
    by_cases hz : s.accZero = true
    · exact .inr ⟨if_pos hz, by simp [Instr.operand]⟩
    · exact .inl (if_neg hz)
  | halt a => exact h.elim

/-! ### The outcomes (R72, R78) -/

theorem decodeCause_mem (e : DecodeError) :
    decodeCause e ∈ [Cause.negativeOperation, .operationTooSmall, .invalidOperator] := by
  cases e <;> decide

/-- The count of a running core takes one step off the budget and either goes on, with budget left, or ends in the step-budget
abort (R79). -/
theorem State.count_outcome {u : State} (hr : u.rs = .running) (hs : 1 ≤ u.sr) :
    u.count.sr + 1 = u.sr ∧
    ((u.count.rs = .running ∧ 1 ≤ u.count.sr ∧ u.count.cause = u.cause ∧ u.count.info = u.info) ∨
     (u.count.rs = .aborted ∧ u.count.sr = 0 ∧ u.count.cause = .stepBudgetExceeded ∧ u.count.info = 0)) := by
  rw [State.count_eq_counted u hr hs]
  rcases u.counted_cases with ⟨h1, e⟩ | ⟨h1, e⟩ <;> rw [e]
  · exact ⟨h1.symm, .inr ⟨rfl, rfl, rfl, rfl⟩⟩
  · have hleft : 1 ≤ u.sr - 1 := by omega
    exact ⟨Nat.sub_add_cancel hs, .inl ⟨rfl, hleft, rfl, rfl⟩⟩

/-- Settles O12: one row of the table for each case of `step_cases` and `exec_cases`; the READ that waits is excluded, because its
step is not enabled. -/
theorem stepOutcomesLeaveTabulatedState : Obligations.StepOutcomesLeaveTabulatedState := by
  intro s t hI ht hw h
  obtain ⟨-, ⟨hterm, -⟩ | ⟨-, hp, rfl⟩ | ⟨-, -, e, -, rfl⟩ | ⟨-, i, hi, hx⟩⟩ := step_cases h
  · rw [ht] at hterm; cases hterm
  · exact .inl ⟨hp, rfl⟩
  · rw [State.start_advance s ht]
    exact .inr (.inl ⟨decodeCause e, decodeCause_mem e, rfl⟩)
  rcases exec_cases ht hx with ⟨a, rfl, hin, -⟩ | ⟨c, hc, x, inp, rfl, hinp⟩ | ⟨a, rfl, rfl⟩ | ⟨u, hu, rfl⟩
  · rw [(State.waiting_iff s).2 ⟨⟨a, hi⟩, hin⟩] at hw
    cases hw
  · refine .inr (.inr (.inl ⟨c, hc, x, inp, rfl, hinp.imp_right ?_⟩))
    rintro ⟨a, v, rfl, hv⟩
    exact ⟨a, v, hi, hv⟩
  · exact .inr (.inr (.inr (.inl ⟨a, hi, rfl⟩)))
  · obtain ⟨hsr, hcause, hinfo⟩ := hu.budget_and_cause_eq
    have hbudget : 1 ≤ u.sr := hsr ▸ hI.budget ht
    have hnone : u.cause = .none := hcause.trans (hI.cause_eq_none ht)
    obtain ⟨hcount, hend⟩ := State.count_outcome (u := { u with rs := .running }) rfl hbudget
    refine .inr (.inr (.inr (.inr ⟨i, hi, hcount.trans hsr, ?_, ?_⟩)))
    · rw [State.count_pc]
      exact hu.pc_cases
    · exact hend.imp_left fun ⟨hrs, hleft, hc, hinf⟩ => ⟨hrs, hleft, hc.trans hnone, hinf.trans hinfo⟩

end Sys2Proof.Machine
end

section
/-! SUPPORT. READ and WRITE (41_io.md R85, R86): the word of an operator and operand decodes to it, the step at a decoded
instruction, and what a handler leaves at each of its operand's checks. -/

namespace Sys2Proof

/-! ### The word of an instruction (30_encoding.md R61) -/

theorem operatorField_encode {c : Config} {i : Instr} (hi : i.WellFormed c) :
    operatorField c (i.operator * c.opBase + i.operand) = i.operator := by
  rw [operatorField, Nat.mul_comm, Nat.mul_add_div c.opBase_pos, Nat.div_eq_of_lt hi, Nat.add_zero]

theorem operandField_encode {c : Config} {i : Instr} (hi : i.WellFormed c) :
    operandField c (i.operator * c.opBase + i.operand) = i.operand := by
  rw [operandField, Nat.mul_comm, Nat.mul_add_mod, Nat.mod_eq_of_lt hi]

/-- Every operator has two digits, so that the word reaches the threshold `T`, and its fields are the instruction's. -/
theorem decode_encode {c : Config} {i : Instr} (hc : c.Valid) (hi : i.WellFormed c) : decode c (encode c i) = .ok i := by
  obtain ⟨hT, -⟩ := Laws.EncodedInRange.ofOperator i c hc hi
  exact decode_of_fields (Int.ofNat_le.1 hT) (operatorField_encode hi) (operandField_encode hi)

/-- The same, with the word spelled as the spec spells it: the operator, then `A` digits of operand. -/
theorem decode_operator_operand {c : Config} {i : Instr} (hc : c.Valid) (hi : i.operand < 10 ^ (c.wordDigits - 2)) :
    decode c (i.operator * 10 ^ (c.wordDigits - 2) + i.operand) = .ok i := by
  have hw : encode c i = i.operator * 10 ^ (c.wordDigits - 2) + i.operand := by
    simp [encode, Config.opBase, Config.operandDigits]
  rw [← hw]
  exact decode_encode hc hi

end Sys2Proof

namespace Sys2Proof.Machine

/-! ### The step at a decoded instruction -/

theorem step_of_nextInstr {s : State} {i : Instr} (hv : s.cfg.Valid) (ht : s.terminal = false)
    (hi : nextInstr s = some i) : step s = exec i s := by
  obtain ⟨hp, hd⟩ := (nextInstr_eq_some s i).1 hi
  exact step_of_decode_ok hv ht hp rfl hd

/-- With a READ at `PC`, the core waits exactly when no input value is ready. -/
theorem State.waiting_iff_of_read {s : State} {a : Nat} (hi : nextInstr s = some (.read a)) :
    s.waiting = true ↔ s.input = [] :=
  (State.waiting_iff s).trans (and_iff_right ⟨a, hi⟩)

/-! ### What a handler leaves at its operand's checks -/

/-- A completed instruction of a running core with budget left is counted as the claims say (40_cycle.md R79). -/
theorem State.count_running {u : State} (hs : 1 ≤ u.sr) : State.count { u with rs := .running } = u.counted :=
  State.count_eq_counted _ rfl hs

theorem runHandler_withOperand_inside {s : State} (ht : s.terminal = false) {a : Nat} (ha : a < s.cfg.memWords)
    (f : Int → State → Handled) :
    runHandler (fun t => withOperand a (fun m => f m t) t) s =
      settle (f (s.mem.read a) { s with rs := .running, pc := s.pc + 1 }) := by
  rcases runHandler_withOperand ht a f with ⟨-, e⟩ | ⟨h, -⟩
  · exact e
  · omega

theorem runHandler_withOperand_outside {s : State} (ht : s.terminal = false) {a : Nat} (ha : s.cfg.memWords ≤ a)
    (f : Int → State → Handled) :
    runHandler (fun t => withOperand a (fun m => f m t) t) s =
      { s with pc := s.pc + 1, rs := .aborted, cause := .addressErrorOperand, info := a } := by
  rcases runHandler_withOperand ht a f with ⟨h, -⟩ | ⟨-, e⟩
  · omega
  · exact e

section Store
variable {s : State} {a : Nat} {v : Int} {f : State → Int}

theorem runHandler_storeOperand_stores (ht : s.terminal = false) (hv : f { s with rs := .running, pc := s.pc + 1 } = v)
    (ha : a < s.cfg.memWords) (hw : s.cfg.InWord v) (hs : 1 ≤ s.sr) :
    runHandler (fun t => storeOperand a (f t) t) s =
      { s with pc := s.pc + 1, mem := s.mem.write a v }.counted := by
  rcases runHandler_storeOperand ht a f v hv with ⟨-, -, e⟩ | ⟨-, h, -⟩ | ⟨h, -⟩
  · exact e.trans (State.count_running (u := { s with pc := s.pc + 1, mem := s.mem.write a v }) hs)
  · exact absurd hw h
  · omega

theorem runHandler_storeOperand_rangeError (ht : s.terminal = false)
    (hv : f { s with rs := .running, pc := s.pc + 1 } = v) (ha : a < s.cfg.memWords) (hw : ¬ s.cfg.InWord v) :
    runHandler (fun t => storeOperand a (f t) t) s =
      { s with pc := s.pc + 1, rs := .aborted, cause := .rangeError, info := v } := by
  rcases runHandler_storeOperand ht a f v hv with ⟨-, h, -⟩ | ⟨-, -, e⟩ | ⟨h, -⟩
  · exact absurd h hw
  · exact e
  · omega

/-- The address is checked before the value (60_exceptions.md R104 item 5), which may therefore be any. -/
theorem runHandler_storeOperand_outside (ht : s.terminal = false) (ha : s.cfg.memWords ≤ a) :
    runHandler (fun t => storeOperand a (f t) t) s =
      { s with pc := s.pc + 1, rs := .aborted, cause := .addressErrorOperand, info := a } := by
  rcases runHandler_storeOperand ht a f _ rfl with ⟨h, -, -⟩ | ⟨h, -, -⟩ | ⟨-, e⟩
  · omega
  · omega
  · exact e

/-- A word written inside memory is what the next fetch from its address reads. -/
theorem fetch_of_written (ha : a < s.cfg.memWords) (hm : Memory.wf s.mem) :
    fetch { s with pc := a, mem := s.mem.write a v } = .ok v := by
  rw [fetch_inside (s := { s with pc := a, mem := s.mem.write a v }) ha, Memory.read_write_same _ _ _ hm]

end Store

/-! ### READ (R85) -/

/-- With no input ready the model's READ answers the state itself (log 6). -/
theorem exec_read_of_no_input {s : State} (hin : s.input = []) (a : Nat) : exec (.read a) s = .next s := by
  simp [exec, execRead, inRead, hin]

/-- The input value is taken before the address check (92_eei_decisions.md D9). -/
theorem exec_read_of_input {s : State} {v : Int} {rest : List Int} (hin : s.input = v :: rest) (a : Nat) :
    exec (.read a) s = .next (runHandler (storeOperand a v) { s with input := rest }) := by
  simp [exec, execRead, inRead, hin]

/-- Between runs, a `single_step` that would wait answers `waiting` and changes nothing (log 16). -/
theorem react_singleStep_of_waiting {s : State} (hr : s.runPhase = .idle) (ht : s.terminal = false)
    (hw : s.waiting = true) : react .singleStep s = .next (.waiting, s) := by
  have hsame : { s with runPhase := .idle } = s := by rw [← hr]
  simp [react, State.runActive, hr, singleStep, ht, issueStep, State.stepEnabled_eq ht, hw, hsame]

/-- Settles O15: the taken input leaves a state on which the handler is a store of the value, with its two checks. -/
theorem readInstruction : Obligations.ReadInstruction := by
  refine ⟨fun c a hc ha => decode_operator_operand (i := .read a) hc ha, fun s a ht hi => ?_, ?_⟩
  · rw [State.stepEnabled_eq ht, ne_eq, ← State.waiting_iff_of_read hi, Bool.not_eq_true', Bool.not_eq_true]
  intro s a v rest ht hin
  have ht' : { s with input := rest }.terminal = false := ht
  rw [exec_read_of_input hin]
  refine ⟨fun ha hw hs hm => ⟨?_, ?_, ?_, ?_⟩, fun ha hw => ?_, fun ha => ?_⟩
  · exact congrArg _ (runHandler_storeOperand_stores (f := fun _ => v) ht' rfl ha hw hs)
  · exact Memory.read_write_same _ _ _ hm
  · exact fun b hb => Memory.read_write_other _ _ _ _ hb
  · exact fetch_of_written ha hm
  · exact congrArg _ (runHandler_storeOperand_rangeError (f := fun _ => v) ht' rfl ha hw)
  · exact congrArg _ (runHandler_storeOperand_outside (f := fun _ => v) ht' ha)

/-- Settles O14: the READ's own answer is the step's, and waiting is what disables the step and makes `single_step` wait. -/
theorem readWithoutInputChangesNothing : Obligations.ReadWithoutInputChangesNothing := by
  refine ⟨fun s a hin => exec_read_of_no_input hin a, fun s a hv ht hi hin => ?_⟩
  have hw : s.waiting = true := (State.waiting_iff_of_read hi).2 hin
  refine ⟨?_, ?_, fun hr => react_singleStep_of_waiting hr ht hw⟩
  · rw [State.stepEnabled_eq ht, hw, Bool.not_true]
  · rw [step_of_nextInstr hv ht hi, exec_read_of_no_input hin]

/-! ### WRITE (R86) -/

/-- Settles O16: the handler reads its operand's word and appends it, or aborts at the address check. -/
theorem writeInstruction : Obligations.WriteInstruction := by
  refine ⟨fun c a hc ha => decode_operator_operand (i := .write a) hc ha, fun s a ht => ⟨fun ha hs => ?_, fun ha => ?_⟩⟩
  · have hrun := runHandler_withOperand_inside ht ha fun m t => .completed (outWrite m t)
    exact congrArg _ (hrun.trans
      (State.count_running (u := { s with pc := s.pc + 1, output := s.output ++ [s.mem.read a] }) hs))
  · exact congrArg _ (runHandler_withOperand_outside ht ha fun m t => .completed (outWrite m t))

end Sys2Proof.Machine
end

section
/-! SUPPORT. LOAD and STORE (42_load_store.md R87, R88), and the shape LOAD shares with ADD, SUBTRACT and MULTIPLY: one word
read through the operand, and `ACC` replaced. -/

namespace Sys2Proof.Machine

/-! ### STORE (R88) -/

/-- Settles O18: STORE is the checked write of `ACC`, which the start phase and the advance leave as it was. -/
theorem storeInstruction : Obligations.StoreInstruction := by
  refine ⟨fun c a hc ha => decode_operator_operand (i := .store a) hc ha, fun s a ht =>
    ⟨fun ha hw hs hm => ⟨?_, ?_, ?_, ?_⟩, fun ha hw => ?_, fun ha => ?_⟩⟩
  · exact congrArg _ (runHandler_storeOperand_stores (f := State.acc) ht rfl ha hw hs)
  · exact Memory.read_write_same _ _ _ hm
  · exact fun b hb => Memory.read_write_other _ _ _ _ hb
  · exact fetch_of_written ha hm
  · exact congrArg _ (runHandler_storeOperand_rangeError (f := State.acc) ht rfl ha hw)
  · exact congrArg _ (runHandler_storeOperand_outside (f := State.acc) ht ha)

/-! ### LOAD (R87) -/

/-- A handler that replaces `ACC` by a function of `ACC` and its operand's word has no check but the address. -/
theorem runHandler_setAcc_inside {s : State} (ht : s.terminal = false) {a : Nat} (ha : a < s.cfg.memWords) (hs : 1 ≤ s.sr)
    (f : Int → Int → Int) :
    runHandler (fun t => withOperand a (fun m => .completed (t.setAcc (f t.acc m))) t) s =
      { s with pc := s.pc + 1, acc := f s.acc (s.mem.read a) }.counted :=
  (runHandler_withOperand_inside ht ha fun m t => .completed (t.setAcc (f t.acc m))).trans
    (State.count_running (u := { s with pc := s.pc + 1, acc := f s.acc (s.mem.read a) }) hs)

/-- Settles O17: the handler replaces `ACC` by its operand's word, whatever `ACC` was, or aborts at the address check; the word is
in range by the invariant on memory (R30 item 4). -/
theorem loadInstruction : Obligations.LoadInstruction := by
  refine ⟨fun c a hc ha => decode_operator_operand (i := .load a) hc ha, fun s a ht =>
    ⟨fun ha hs => ⟨?_, fun hI => hI.words a⟩, fun ha => ?_⟩⟩
  · exact congrArg _ (runHandler_setAcc_inside ht ha hs fun _ m => m)
  · exact congrArg _ (runHandler_withOperand_outside ht ha fun m t => .completed (t.setAcc m))

end Sys2Proof.Machine
end

section
/-! SUPPORT. ADD, SUBTRACT, DIVIDE and MULTIPLY (43_arithmetic.md R89 to R92): the three that replace `ACC` without a check of
their own share one lemma; DIVIDE has its zero divisor and the model's quotient besides. -/

namespace Sys2Proof.Machine

/-! ### ADD, SUBTRACT and MULTIPLY (R89, R90, R92) -/

/-- Both ends of an instruction that is exact arithmetic on `ACC` and its operand's word (R93). -/
theorem exec_of_setAcc_handler {i : Instr} {a : Nat} {f : Int → Int → Int} {s : State}
    (hi : exec i s = .next (runHandler (fun t => withOperand a (fun m => .completed (t.setAcc (f t.acc m))) t) s))
    (ht : s.terminal = false) :
    (a < s.cfg.memWords → 1 ≤ s.sr →
      exec i s = .next { s with pc := s.pc + 1, acc := f s.acc (s.mem.read a) }.counted) ∧
    (s.cfg.memWords ≤ a →
      exec i s = .next { s with pc := s.pc + 1, rs := .aborted, cause := .addressErrorOperand, info := a }) := by
  rw [hi]
  refine ⟨fun ha hs => ?_, fun ha => ?_⟩
  · rw [runHandler_setAcc_inside ht ha hs f]
  · rw [runHandler_withOperand_outside ht ha fun m t => .completed (t.setAcc (f t.acc m))]

/-- Settles O19: ADD is the sum of `ACC` and its operand's word. -/
theorem addInstruction : Obligations.AddInstruction :=
  ⟨fun _ a hc ha => decode_operator_operand (i := .add a) hc ha,
    fun _ _ ht => exec_of_setAcc_handler (f := fun x m => x + m) rfl ht⟩

/-- Settles O20: SUBTRACT is the difference of `ACC` and its operand's word, in that order. -/
theorem subtractInstruction : Obligations.SubtractInstruction :=
  ⟨fun _ a hc ha => decode_operator_operand (i := .subtract a) hc ha,
    fun _ _ ht => exec_of_setAcc_handler (f := fun x m => x - m) rfl ht⟩

/-- Settles O22: MULTIPLY is the product of `ACC` and its operand's word. -/
theorem multiplyInstruction : Obligations.MultiplyInstruction :=
  ⟨fun _ a hc ha => decode_operator_operand (i := .multiply a) hc ha,
    fun _ _ ht => exec_of_setAcc_handler (f := fun x m => x * m) rfl ht⟩

/-! ### DIVIDE (R91, R95) -/

/-- The spec's formula for the truncated quotient (00_scope.md R6) is Lean's: both have the magnitude `|a| div |b|`, and their
signs can differ only where that is 0. -/
theorem tdiv_eq_intTdiv (a b : Int) : tdiv a b = Int.tdiv a b := by
  rw [tdiv, ← Int.sign_mul_natAbs (Int.tdiv a b), Int.sign_tdiv, Int.natAbs_tdiv]
  split
  next hlt => simp [Nat.div_eq_of_lt hlt]
  next => rfl

/-- The model's two roundings (R94) are Lean's own quotients. -/
theorem quotient_eq (d : DivMode) (a b : Int) :
    quotient d a b = if d = .trunc then Int.tdiv a b else Int.fdiv a b := by
  cases d with
  | trunc => exact (tdiv_eq_intTdiv a b).trans (if_pos rfl).symm
  | floor => rfl

/-- What DIVIDE does with its operand's word: the divisor is checked before any write (R95). -/
def divideBy (a : Nat) (m : Int) (t : State) : Handled :=
  if m = 0 then .aborted (t.raiseAbort .divideByZero a) else .completed (t.setAcc (quotient t.cfg.divMode t.acc m))

theorem exec_divide (a : Nat) (s : State) :
    exec (.divide a) s = .next (runHandler (fun t => withOperand a (fun m => divideBy a m t) t) s) := rfl

theorem divideBy_zero (a : Nat) (t : State) : divideBy a 0 t = .aborted (t.raiseAbort .divideByZero a) := if_pos rfl

theorem divideBy_ne_zero (a : Nat) {m : Int} (hm : m ≠ 0) (t : State) :
    divideBy a m t = .completed (t.setAcc (quotient t.cfg.divMode t.acc m)) := if_neg hm

/-- Settles O21: inside memory the zero test splits the handler's two ends, and outside the address check comes first. -/
theorem divideInstruction : Obligations.DivideInstruction := by
  refine ⟨fun c a hc ha => decode_operator_operand (i := .divide a) hc ha,
    fun s a ht => ⟨fun ha hm hs => ?_, fun ha hm => ?_, fun ha => ?_⟩,
    fun m _ => ⟨Int.zero_tdiv m, Int.zero_fdiv m⟩⟩
  · rw [exec_divide, runHandler_withOperand_inside ht ha, divideBy_ne_zero a hm, ← quotient_eq]
    exact congrArg _ (State.count_running
      (u := { s with pc := s.pc + 1, acc := quotient s.cfg.divMode s.acc (s.mem.read a) }) hs)
  · rw [exec_divide, runHandler_withOperand_inside ht ha, hm, divideBy_zero]
    rfl
  · rw [exec_divide, runHandler_withOperand_outside ht ha]

end Sys2Proof.Machine
end

section
/-! SUPPORT. BRANCH, BRANCHNEG, BRANCHZERO and HALT (44_control.md R96 to R100): the branches share one handler, of which the claims
see the taken and the not taken end, and the fetch that follows a taken branch. -/

namespace Sys2Proof.Machine

/-! ### The two ends of a branch (R96 to R98) -/

/-- An instruction whose handler branches on `f` completes, with `PC` at its operand or advanced; the target is not checked
(R100). -/
theorem exec_of_branchIf_handler {i : Instr} {a : Nat} {f : State → Bool} {s : State}
    (hi : exec i s = .next (runHandler (fun t => branchIf (f t) a t) s)) (ht : s.terminal = false) (hs : 1 ≤ s.sr)
    {b : Bool} (hb : f { s with rs := .running, pc := s.pc + 1 } = b) :
    exec i s = .next { s with pc := if b then a else s.pc + 1 }.counted := by
  rw [hi, runHandler_branchIf ht a f b hb]
  exact congrArg _ (State.count_running (u := { s with pc := if b then a else s.pc + 1 }) hs)

/-- `i` is a branch to `a` that is taken in `s`: BRANCH always, BRANCHNEG on the exact sign of `ACC`, BRANCHZERO on exact zero. -/
def TakenBranch (i : Instr) (a : Nat) (s : State) : Prop :=
  i = .branch a ∨ (i = .branchneg a ∧ s.acc < 0) ∨ (i = .branchzero a ∧ s.acc = 0)

/-- All three taken branches leave the same state, whatever the target is. -/
theorem exec_of_takenBranch {i : Instr} {a : Nat} {s : State} (h : TakenBranch i a s) (ht : s.terminal = false)
    (hs : 1 ≤ s.sr) : exec i s = .next { s with pc := a }.counted := by
  rcases h with rfl | ⟨rfl, hneg⟩ | ⟨rfl, hzero⟩
  · exact exec_of_branchIf_handler (f := fun _ => true) rfl ht hs rfl
  · exact exec_of_branchIf_handler (f := State.accNegative) rfl ht hs (decide_eq_true hneg)
  · exact exec_of_branchIf_handler (f := State.accZero) rfl ht hs (decide_eq_true hzero)

theorem exec_branchneg_not_taken {s : State} (a : Nat) (ht : s.terminal = false) (hs : 1 ≤ s.sr) (h : 0 ≤ s.acc) :
    exec (.branchneg a) s = .next { s with pc := s.pc + 1 }.counted :=
  exec_of_branchIf_handler (a := a) (f := State.accNegative) rfl ht hs (decide_eq_false h.not_gt)

theorem exec_branchzero_not_taken {s : State} (a : Nat) (ht : s.terminal = false) (hs : 1 ≤ s.sr) (h : s.acc ≠ 0) :
    exec (.branchzero a) s = .next { s with pc := s.pc + 1 }.counted :=
  exec_of_branchIf_handler (a := a) (f := State.accZero) rfl ht hs (decide_eq_false h)

/-! ### The fetch after a taken branch (R100) -/

/-- With two steps left, the first is counted without the step-budget abort. -/
theorem State.counted_of_two_le {u : State} (hs : 2 ≤ u.sr) :
    u.counted = { u with rs := .running, sr := u.sr - 1 } := by
  rcases u.counted_cases with ⟨h1, -⟩ | ⟨-, e⟩
  · omega
  · exact e

/-- A core that has completed an instruction with steps left and with `PC` outside memory aborts at its next fetch. -/
theorem step_counted_of_pc_outside {u : State} (hv : u.cfg.Valid) (hs : 2 ≤ u.sr) (hp : u.cfg.memWords ≤ u.pc) :
    step u.counted = .next (u.counted.raiseAbort .addressErrorFetch u.pc) := by
  rw [State.counted_of_two_le hs]
  exact step_of_fetch_outside (s := { u with rs := .running, sr := u.sr - 1 }) hv rfl hp

/-- The same after a branch, with the state written out from the one in which the branch started. -/
theorem step_of_branched_outside {s : State} {a : Nat} (hv : s.cfg.Valid) (hs : 2 ≤ s.sr) (ha : s.cfg.memWords ≤ a) :
    step { s with pc := a }.counted =
      .next { s with pc := a, sr := s.sr - 1, rs := .aborted, cause := .addressErrorFetch, info := a } := by
  rw [step_counted_of_pc_outside (u := { s with pc := a }) hv hs ha, State.counted_of_two_le (u := { s with pc := a }) hs]
  rfl

/-- Settles O27: the taken branch is counted with a step left, so that the core runs on into the fetch that fails. -/
theorem branchOutsideMemoryAbortsAtNextFetch : Obligations.BranchOutsideMemoryAbortsAtNextFetch := by
  intro s i a hv ht hs ha htaken
  have hcounted := State.counted_of_two_le (u := { s with pc := a }) hs
  refine ⟨{ s with pc := a }.counted, _, exec_of_takenBranch htaken ht (Nat.one_le_of_lt hs), ?_, ?_,
    step_counted_of_pc_outside (u := { s with pc := a }) hv hs ha, rfl⟩
  · rw [hcounted]
  · rw [hcounted]

/-! ### BRANCH, BRANCHNEG and BRANCHZERO -/

/-- Settles O23: BRANCH is always taken. -/
theorem branchInstruction : Obligations.BranchInstruction :=
  ⟨fun _ a hc ha => decode_operator_operand (i := .branch a) hc ha,
    fun _ _ ht hs => ⟨exec_of_takenBranch (.inl rfl) ht hs, step_of_branched_outside⟩⟩

/-- Settles O24: the sign of `ACC` splits BRANCHNEG's two ends. -/
theorem branchnegInstruction : Obligations.BranchnegInstruction :=
  ⟨fun _ a hc ha => decode_operator_operand (i := .branchneg a) hc ha,
    fun _ a ht hs =>
      ⟨fun hneg => ⟨exec_of_takenBranch (.inr (.inl ⟨rfl, hneg⟩)) ht hs, step_of_branched_outside⟩,
        exec_branchneg_not_taken a ht hs⟩⟩

/-- Settles O25: `ACC = 0` splits BRANCHZERO's two ends. -/
theorem branchzeroInstruction : Obligations.BranchzeroInstruction :=
  ⟨fun _ a hc ha => decode_operator_operand (i := .branchzero a) hc ha,
    fun _ a ht hs =>
      ⟨fun hzero => exec_of_takenBranch (.inr (.inr ⟨rfl, hzero⟩)) ht hs, exec_branchzero_not_taken a ht hs⟩⟩

/-! ### HALT (R99) -/

/-- HALT ends the step after the advance; its operand is ignored and it is not counted (40_cycle.md R78). -/
theorem exec_halt {s : State} (a : Nat) (ht : s.terminal = false) :
    exec (.halt a) s = .next { s with pc := s.pc + 1, rs := .halted } := by
  have hrun : runHandler (fun t => .halted t.signalHalt) s = { s with pc := s.pc + 1, rs := .halted } := by
    rw [runHandler_eq, State.start_advance s ht]
    rfl
  exact congrArg Host.Outcome.next hrun

/-- Settles O26: the halt itself, the terminal state it leaves, and the boot that is the way out of it. -/
theorem haltInstruction : Obligations.HaltInstruction := by
  refine ⟨fun c a hc ha => decode_operator_operand (i := .halt a) hc ha, fun s a ht => exec_halt a ht, fun s hr => ?_,
    fun s => ⟨s.boot_acc, s.boot_pc, ?_⟩⟩
  · exact State.stepEnabled_eq_false ((State.terminal_eq_true s).2 (.inl hr))
  · rw [State.halted_eq_false, State.boot_rs]
    decide

end Sys2Proof.Machine
end

section
/-! SUPPORT. Boot and power-on (70_reset_and_hazards.md R125, R126, R128): both leave the engine registers at boot's values, and those are
the states that booting does not change. -/

namespace Sys2Proof.Machine

/-! ### The engine registers at boot's values -/

/-- The engine registers hold the values `Boot()` writes (70_reset_and_hazards.md R125). -/
structure State.AtBoot (s : State) : Prop where
  acc : s.acc = 0
  pc : s.pc = 0
  rs : s.rs = .ready
  sr : s.sr = s.cfg.maxSteps
  cause : s.cause = .none
  info : s.info = 0
  stopRequest : s.stopRequest = false

theorem State.boot_atBoot (s : State) : s.boot.AtBoot where
  acc := s.boot_acc
  pc := s.boot_pc
  rs := s.boot_rs
  sr := s.boot_sr
  cause := s.boot_cause
  info := s.boot_info
  stopRequest := s.boot_stopRequest

theorem State.powerOn_atBoot (c : Config) : (State.powerOn c).AtBoot := ⟨rfl, rfl, rfl, rfl, rfl, rfl, rfl⟩

/-- The states that booting does not change are those at boot's values: boot writes no other field. -/
theorem State.boot_eq_self_iff (s : State) : s.boot = s ↔ s.AtBoot := by
  constructor
  · intro h
    rw [← h]
    exact s.boot_atBoot
  · intro h
    cases s
    simp only [State.boot, State.mk.injEq, true_and, and_true]
    exact ⟨h.acc.symm, h.pc.symm, h.rs.symm, h.sr.symm, h.cause.symm, h.info.symm, h.stopRequest.symm⟩

/-- `READY` is not `HALTED` (10_state.md R21). -/
theorem State.AtBoot.halted {s : State} (h : s.AtBoot) : s.halted = false := by
  rw [State.halted_eq_false, h.rs]
  decide

/-! ### Boot (R125, R128) -/

/-- The boot event has no guard: the host can issue it in every state, and it always succeeds. -/
theorem react_boot (s : State) : react .boot s = .next (.done, s.boot) := rfl

theorem State.boot_boot (s : State) : s.boot.boot = s.boot := s.boot.boot_eq_self_iff.2 s.boot_atBoot

/-- Settles O43: the registers of a booted state, boot's frame field by field, and the fixed points of boot. -/
theorem bootResetsTheEngine : Obligations.BootResetsTheEngine := by
  intro s
  have h := s.boot_atBoot
  exact ⟨⟨h.acc, h.pc, h.rs, h.halted, s.boot_sr, h.cause, h.info, h.stopRequest⟩,
    ⟨s.boot_mem, s.boot_input, s.boot_output, s.boot_cfg⟩, react_boot s, s.boot_boot⟩

/-! ### Power-on (R126) -/

@[simp] theorem State.powerOn_mem (c : Config) : (State.powerOn c).mem = [] := rfl

/-- Settles O44: the memory of power-on lists no word, and its registers make it a state that booting does not change. -/
theorem powerOnState : Obligations.PowerOnState := by
  intro c
  have h := State.powerOn_atBoot c
  have hmem (a : Nat) : (State.powerOn c).mem.read a = 0 := by rw [State.powerOn_mem, Memory.read_nil]
  exact ⟨hmem, (State.powerOn c).boot_eq_self_iff.2 h, h.acc, h.pc, h.rs, h.sr, h.cause, h.info, h.stopRequest⟩

end Sys2Proof.Machine
end

section
/-! SUPPORT. Decoder and encoder as inverses of each other (30_encoding.md §4, §6, §7), and the sample words of §5. -/

namespace Sys2Proof

/-- A word that decodes is its operator and its operand, put together again by division with remainder (30_encoding.md R61). -/
theorem encode_of_decode {c : Config} {w : Int} {i : Instr} (h : decode c w = .ok i) : encode c i = w := by
  obtain ⟨hT, hi⟩ := (decode_eq_ok c w i).1 h
  obtain ⟨hop, ha⟩ := (instrOf_eq_some _ _ _).1 hi
  have hsplit : i.operator * c.opBase + i.operand = w.toNat := by
    rw [hop, ha, operatorField, operandField, Nat.div_add_mod']
  rw [encode, hsplit, Int.toNat_of_nonneg (by omega)]

/-- The band of its operator keeps an encoded word in word range (30_encoding.md R60, R63). -/
theorem inWord_encode {c : Config} {i : Instr} (hc : c.Valid) (hi : i.WellFormed c) : c.InWord (encode c i) := by
  obtain ⟨hT, hM, -⟩ := Laws.EncodedInRange.ofOperator i c hc hi
  exact ⟨by omega, hM⟩

/-- Settles O1: every operator has two digits, so that the encoding reaches the threshold and its fields are read back. -/
theorem decodeOfEncodeIsIdentity : Obligations.DecodeOfEncodeIsIdentity :=
  fun _ _ hc hi => decode_encode hc hi

/-- Settles O2: the operand is a remainder by `OPBASE`, division with remainder gives the word back, and an encoding is in word
range. -/
theorem encodeOfDecodeIsIdentity : Obligations.EncodeOfDecodeIsIdentity := by
  intro c w i hc h
  have hi : i.WellFormed c := decode_operand_lt c w i h
  have hw : encode c i = w := encode_of_decode h
  exact ⟨hi, hw, hw ▸ inWord_encode hc hi⟩

/-- Settles O4: the decoder, evaluated at ten fixed words. -/
theorem sampleWordsDecode : Obligations.SampleWordsDecode := by
  unfold Obligations.SampleWordsDecode
  decide

end Sys2Proof
end

section
/-! SUPPORT. What a step answers in every state of a valid configuration (40_cycle.md R80), and what it changes: everything that is no
completed instruction's own effect leaves memory, `ACC` and the output alone. -/

namespace Sys2Proof.Machine

/-! ### The answer of a step -/

/-- No arm of `exec` faults or refuses, the READ that waits included (log 6). -/
theorem exec_answers_next (i : Instr) (s : State) : ∃ t, exec i s = .next t := by
  cases i with
  | read a =>
    rcases inRead_cases s with ⟨hin, -⟩ | ⟨v, rest, hin, -⟩
    · exact ⟨s, exec_read_of_no_input hin a⟩
    · exact ⟨_, exec_read_of_input hin a⟩
  | write a | load a | store a | add a | subtract a | divide a | multiply a | branch a | branchneg a | branchzero a | halt a =>
    exact ⟨_, rfl⟩

/-- In a terminal state of a valid configuration the model's step answers, and with the state itself (log 7). -/
theorem step_of_terminal {s : State} (hv : s.cfg.Valid) (ht : s.terminal = true) : step s = .next s := by
  simp [step, cycle, hv, ht]

/-- Settles O11: terminal, failed fetch, failed decode and decoded instruction each have an answer. -/
theorem stepAlwaysAnswersNextState : Obligations.StepAlwaysAnswersNextState := by
  intro s hv
  cases ht : s.terminal with
  | true => exact ⟨s, step_of_terminal hv ht⟩
  | false =>
    rcases fetch_cases s with ⟨hp, -⟩ | ⟨hp, -⟩
    · cases hd : decode s.cfg (s.mem.read s.pc) with
      | error e => exact ⟨_, step_of_decode_error hv ht hp rfl hd⟩
      | ok i =>
        rw [step_of_decode_ok hv ht hp rfl hd]
        exact exec_answers_next i s
    · exact ⟨_, step_of_fetch_outside hv ht hp⟩

/-- Settles O9: a fetch inside memory hands its word to the decoder, and the decoder its instruction to `exec`. -/
theorem stepRunsDecodedInstruction : Obligations.StepRunsDecodedInstruction :=
  fun _ _ hv ht hp hd => step_of_decode_ok hv ht hp rfl hd

/-! ### What a step changes -/

/-- `t` differs from `s` only in the engine's own registers `PC`, `RS`, `CAUSE` and `INFO`, and in an input value that a READ has
taken before its abort (41_io.md R85). -/
def EngineMove (s t : State) : Prop :=
  ∃ (pc : Nat) (rs : RunState) (c : Cause) (x : Int) (inp : List Int),
    t = { s with pc := pc, rs := rs, cause := c, info := x, input := inp } ∧
    (inp = s.input ∨ ∃ (a : Nat) (v : Int), nextInstr s = some (.read a) ∧ s.input = v :: inp)

/-- A step either moves the engine only, or completes the instruction at `PC`: that instruction's own effect, then counted. -/
theorem step_engineMove_or_completes {s t : State} (h : step s = .next t) :
    EngineMove s t ∨ ∃ i u, nextInstr s = some i ∧ Effect i s u ∧ t = State.count { u with rs := .running } := by
  obtain ⟨-, ⟨-, rfl⟩ | ⟨-, -, rfl⟩ | ⟨hs, -, e, -, rfl⟩ | ⟨hs, i, hi, hx⟩⟩ := step_cases h
  · exact .inl ⟨_, _, _, _, _, rfl, .inl rfl⟩
  · exact .inl ⟨_, _, _, _, _, rfl, .inl rfl⟩
  · exact .inl ⟨_, _, _, _, _, rfl, .inl rfl⟩
  rcases exec_cases hs hx with ⟨a, -, -, rfl⟩ | ⟨c, -, x, inp, rfl, hinp⟩ | ⟨a, -, rfl⟩ | ⟨u, hu, rfl⟩
  · exact .inl ⟨_, _, _, _, _, rfl, .inl rfl⟩
  · refine .inl ⟨_, _, _, _, _, rfl, hinp.imp_right ?_⟩
    rintro ⟨a, v, rfl, hv⟩
    exact ⟨a, v, hi, hv⟩
  · exact .inl ⟨_, _, _, _, _, rfl, .inl rfl⟩
  · exact .inr ⟨i, u, hi, hu, rfl⟩

/-! ### What an instruction's own effect writes -/

/-- What an instruction's own effect may write, by field: READ and STORE the one word that their operand names (20_memory.md §1), LOAD
and the arithmetic instructions `ACC` (10_state.md R17), WRITE the end of the output and READ the front of the input (60_exceptions.md
R117), and none the parameters or the host's side. -/
structure EffectWrites (i : Instr) (s u : State) : Prop where
  cfg : u.cfg = s.cfg
  hostSide : u.stopRequest = s.stopRequest ∧ u.runPhase = s.runPhase
  mem : u.mem = s.mem ∨ ∃ a v, (i = .read a ∨ i = .store a) ∧ a < s.cfg.memWords ∧ u.mem = s.mem.write a v
  acc : u.acc = s.acc ∨ ∃ a, i = .load a ∨ i = .add a ∨ i = .subtract a ∨ i = .divide a ∨ i = .multiply a
  output : u.output = s.output ∨ ∃ a, i = .write a ∧ u.output = s.output ++ [s.mem.read a]
  input : u.input = s.input ∨ ∃ (a : Nat) (v : Int), i = .read a ∧ s.input = v :: u.input

theorem Effect.writes {i : Instr} {s u : State} (h : Effect i s u) : EffectWrites i s u := by
  cases i with
  | read a =>
    obtain ⟨v, rest, hin, ha, -, rfl⟩ := h
    exact ⟨rfl, ⟨rfl, rfl⟩, .inr ⟨a, v, .inl rfl, ha, rfl⟩, .inl rfl, .inl rfl, .inr ⟨a, v, rfl, hin⟩⟩
  | write a =>
    obtain ⟨-, rfl⟩ := h
    exact ⟨rfl, ⟨rfl, rfl⟩, .inl rfl, .inl rfl, .inr ⟨a, rfl, rfl⟩, .inl rfl⟩
  | store a =>
    obtain ⟨ha, -, rfl⟩ := h
    exact ⟨rfl, ⟨rfl, rfl⟩, .inr ⟨a, s.acc, .inr rfl, ha, rfl⟩, .inl rfl, .inl rfl, .inl rfl⟩
  | divide a =>
    obtain ⟨-, -, rfl⟩ := h
    exact ⟨rfl, ⟨rfl, rfl⟩, .inl rfl, .inr ⟨a, by simp⟩, .inl rfl, .inl rfl⟩
  | load a | add a | subtract a | multiply a =>
    obtain ⟨-, rfl⟩ := h
    exact ⟨rfl, ⟨rfl, rfl⟩, .inl rfl, .inr ⟨a, by simp⟩, .inl rfl, .inl rfl⟩
  | branch a | branchneg a | branchzero a =>
    cases h
    exact ⟨rfl, ⟨rfl, rfl⟩, .inl rfl, .inl rfl, .inl rfl, .inl rfl⟩
  | halt a => exact h.elim

/-! ### Who writes memory, `ACC`, the channels and the parameters -/

/-- Settles O32: the effect that writes memory is a READ's or a STORE's, and a write leaves every other address. -/
theorem onlyReadAndStoreWriteMemory : Obligations.OnlyReadAndStoreWriteMemory := by
  intro s t h hne
  rcases step_engineMove_or_completes h with ⟨pc, rs, c, x, inp, rfl, -⟩ | ⟨i, u, hi, hu, rfl⟩
  · exact absurd rfl hne
  rw [State.count_mem] at hne ⊢
  obtain ⟨a, v, hia, ha, hmem⟩ := hu.writes.mem.resolve_left hne
  simp only [hi, Option.some.injEq]
  refine ⟨a, hia, ha, fun b hb => ?_⟩
  rw [hmem, Memory.read_write_other _ _ _ _ hb]

/-- Settles O33: the effect that writes `ACC` is a LOAD's or an arithmetic instruction's. -/
theorem onlyLoadAndArithmeticWriteAcc : Obligations.OnlyLoadAndArithmeticWriteAcc := by
  intro s t h hne
  rcases step_engineMove_or_completes h with ⟨pc, rs, c, x, inp, rfl, -⟩ | ⟨i, u, hi, hu, rfl⟩
  · exact absurd rfl hne
  rw [State.count_acc] at hne
  obtain ⟨a, hia⟩ := hu.writes.acc.resolve_left hne
  simp only [hi, Option.some.injEq]
  exact ⟨a, hia⟩

/-- Settles O36: outside a completed instruction only a READ's abort moves a channel, and of the effects WRITE's and READ's. -/
theorem channelsMoveOnlyByReadAndWrite : Obligations.ChannelsMoveOnlyByReadAndWrite := by
  intro s t h
  rcases step_engineMove_or_completes h with ⟨pc, rs, c, x, inp, rfl, hinp⟩ | ⟨i, u, hi, hu, rfl⟩
  · exact ⟨.inl rfl, hinp⟩
  rw [State.count_output, State.count_input, hi]
  simp only [Option.some.injEq]
  exact ⟨hu.writes.output, hu.writes.input⟩

theorem step_cfg {s t : State} (h : step s = .next t) : t.cfg = s.cfg := by
  rcases step_engineMove_or_completes h with ⟨pc, rs, c, x, inp, rfl, -⟩ | ⟨i, u, -, hu, rfl⟩
  · rfl
  · exact (State.count_cfg _).trans hu.writes.cfg

theorem beginRun_cfg (resume : Bool) (s : State) : (beginRun resume s).cfg = s.cfg := by
  cases resume <;> rfl

/-- Settles O37: the events that step keep the parameters because the step does, the others because they write other fields. -/
theorem parametersNeverChange : Obligations.ParametersNeverChange := by
  refine ⟨fun s t h => step_cfg h, fun e s t r h => ?_⟩
  rcases react_cases h with ⟨b, -, rfl⟩ | ⟨-, rfl⟩ | ⟨-, u, p, hu, rfl⟩ | ⟨p, q, i, rfl, -, -⟩ | ⟨m, rfl, -⟩
  · exact beginRun_cfg b s
  · exact s.boot_cfg
  · exact (step_cfg hu : u.cfg = s.cfg)
  · rfl
  · rfl

/-! ### No step leads back to `READY` -/

/-- An instruction that leaves the core `READY` found it `READY`: only a READ that waits does (log 6). -/
theorem exec_ready {i : Instr} {s t : State} (hs : s.terminal = false) (h : exec i s = .next t) (ht : t.rs = .ready) :
    s.rs = .ready := by
  rcases exec_cases hs h with ⟨a, -, -, rfl⟩ | ⟨c, -, x, inp, rfl, -⟩ | ⟨a, -, rfl⟩ | ⟨u, -, rfl⟩
  · exact ht
  · cases ht
  · cases ht
  · rw [State.count_rs] at ht
    split_ifs at ht

theorem step_ready {s t : State} (h : step s = .next t) (ht : t.rs = .ready) : s.rs = .ready := by
  obtain ⟨-, ⟨-, rfl⟩ | ⟨-, -, rfl⟩ | ⟨-, -, e, -, rfl⟩ | ⟨hs, i, -, hx⟩⟩ := step_cases h
  · exact ht
  · cases ht
  · cases ht
  · exact exec_ready hs hx ht

/-- Settles O35: of the events, a step and every event that leaves `RS` cannot enter `READY`, so a boot is left. -/
theorem onlyBootReturnsToReady : Obligations.OnlyBootReturnsToReady := by
  intro e s t r h ht hs
  rcases react_rs_cases h with ⟨he, -⟩ | ⟨-, u, hu, hr⟩ | hr
  · exact he
  · exact absurd (step_ready hu (hr ▸ ht)) hs
  · exact absurd (hr ▸ ht) hs

end Sys2Proof.Machine
end

section
/-! SUPPORT. Noninterference of the host's side with a step (93_implementation_defined.md I16; 60_exceptions.md §6): every operation of a
step commutes with changing the stop request and the run's phase and with putting more output in front of the old. -/

namespace Sys2Proof.Machine

/-- `s` with another stop request and run phase, and with `o` output before everything in its output list. -/
def State.reframe (o : List Int) (b : Bool) (p : RunPhase) (s : State) : State :=
  { s with stopRequest := b, runPhase := p, output := o ++ s.output }

/-- The same handler's end, with its state changed. -/
def Handled.map (f : State → State) : Handled → Handled
  | .completed s => .completed (f s)
  | .halted s => .halted (f s)
  | .aborted s => .aborted (f s)

section
variable (o : List Int) (b : Bool) (p : RunPhase)

@[simp] theorem State.reframe_cfg (s : State) : (s.reframe o b p).cfg = s.cfg := rfl
@[simp] theorem State.reframe_sr (s : State) : (s.reframe o b p).sr = s.sr := rfl

/-! ### The operations of a step -/

theorem outWrite_reframe (v : Int) (s : State) : outWrite v (s.reframe o b p) = (outWrite v s).reframe o b p := by
  simp only [outWrite, State.reframe, List.append_assoc]

theorem State.count_reframe (s : State) : (s.reframe o b p).count = s.count.reframe o b p := by
  unfold State.count
  rw [State.reframe_sr]
  split_ifs <;> rfl

theorem settle_map_reframe (h : Handled) : settle (h.map (State.reframe o b p)) = (settle h).reframe o b p := by
  cases h with
  | completed s => exact s.count_reframe o b p
  | halted s | aborted s => rfl

theorem memRead_reframe (k : Cause) (a : Nat) (s : State) :
    memRead k a (s.reframe o b p) = (memRead k a s).mapError (State.reframe o b p) := by
  unfold memRead
  rw [State.reframe_cfg]
  split_ifs <;> rfl

theorem withOperand_reframe {k k' : Int → Handled} (hk : ∀ m, k' m = (k m).map (State.reframe o b p)) (a : Nat) (s : State) :
    withOperand a k' (s.reframe o b p) = (withOperand a k s).map (State.reframe o b p) := by
  unfold withOperand operandRead
  rw [memRead_reframe]
  cases memRead .addressErrorOperand a s with
  | error t => rfl
  | ok m => exact hk m

theorem divideBy_reframe (a : Nat) (m : Int) (s : State) :
    divideBy a m (s.reframe o b p) = (divideBy a m s).map (State.reframe o b p) := by
  unfold divideBy
  split_ifs <;> rfl

theorem storeOperand_reframe (a : Nat) (v : Int) (s : State) :
    storeOperand a v (s.reframe o b p) = (storeOperand a v s).map (State.reframe o b p) := by
  unfold storeOperand operandWrite memWrite
  rw [State.reframe_cfg]
  split_ifs <;> rfl

/-! ### A handler, an instruction, a step -/

/-- A handler that commutes with the change still does between the start and the count. -/
theorem runHandler_reframe {h : State → Handled}
    (hh : ∀ t : State, h (t.reframe o b p) = (h t).map (State.reframe o b p)) (s : State) :
    runHandler h (s.reframe o b p) = (runHandler h s).reframe o b p := by
  rw [runHandler_eq, runHandler_eq, ← settle_map_reframe, ← hh]
  rfl

theorem runHandler_withOperand_reframe (a : Nat) {f : Int → State → Handled}
    (hf : ∀ (m : Int) (t : State), f m (t.reframe o b p) = (f m t).map (State.reframe o b p)) (s : State) :
    runHandler (fun t => withOperand a (fun m => f m t) t) (s.reframe o b p) =
      (runHandler (fun t => withOperand a (fun m => f m t) t) s).reframe o b p :=
  runHandler_reframe o b p (fun t => withOperand_reframe o b p (fun m => hf m t) a t) s

/-- An instruction that only replaces `ACC` looks at nothing else than `ACC` and its operand's word. -/
theorem runHandler_setAcc_reframe (a : Nat) (f : Int → Int → Int) (s : State) :
    runHandler (fun t => withOperand a (fun m => .completed (t.setAcc (f t.acc m))) t) (s.reframe o b p) =
      (runHandler (fun t => withOperand a (fun m => .completed (t.setAcc (f t.acc m))) t) s).reframe o b p :=
  runHandler_withOperand_reframe o b p a (f := fun m t => .completed (t.setAcc (f t.acc m))) (fun _ _ => rfl) s

theorem runHandler_branchIf_reframe (a : Nat) {f : State → Bool} (hf : ∀ t : State, f (t.reframe o b p) = f t) (s : State) :
    runHandler (fun t => branchIf (f t) a t) (s.reframe o b p) =
      (runHandler (fun t => branchIf (f t) a t) s).reframe o b p := by
  refine runHandler_reframe o b p (fun t => ?_) s
  rw [hf]
  cases f t <;> rfl

theorem exec_reframe {i : Instr} {s t : State} (h : exec i s = .next t) :
    exec i (s.reframe o b p) = .next (t.reframe o b p) := by
  cases i with
  | read a =>
    rcases inRead_cases s with ⟨hin, -⟩ | ⟨v, rest, hin, -⟩
    · rw [exec_read_of_no_input hin] at h
      cases h
      exact exec_read_of_no_input (s := s.reframe o b p) hin a
    · rw [exec_read_of_input hin] at h
      cases h
      exact (exec_read_of_input (s := s.reframe o b p) hin a).trans
        (congrArg _ (runHandler_reframe o b p (storeOperand_reframe o b p a v) { s with input := rest }))
  | write a =>
    cases h
    exact congrArg _ (runHandler_withOperand_reframe o b p a (f := fun m t => .completed (outWrite m t))
      (fun m t => congrArg Handled.completed (outWrite_reframe o b p m t)) s)
  | store a => cases h; exact congrArg _ (runHandler_reframe o b p (fun t => storeOperand_reframe o b p a t.acc t) s)
  | divide a =>
    cases h
    exact congrArg _ (runHandler_withOperand_reframe o b p a (divideBy_reframe o b p a) s)
  | load a => cases h; exact congrArg _ (runHandler_setAcc_reframe o b p a (fun _ m => m) s)
  | add a => cases h; exact congrArg _ (runHandler_setAcc_reframe o b p a (fun x m => x + m) s)
  | subtract a => cases h; exact congrArg _ (runHandler_setAcc_reframe o b p a (fun x m => x - m) s)
  | multiply a => cases h; exact congrArg _ (runHandler_setAcc_reframe o b p a (fun x m => x * m) s)
  | branch a => cases h; exact congrArg _ (runHandler_branchIf_reframe o b p a (f := fun _ => true) (fun _ => rfl) s)
  | branchneg a => cases h; exact congrArg _ (runHandler_branchIf_reframe o b p a (f := State.accNegative) (fun _ => rfl) s)
  | branchzero a => cases h; exact congrArg _ (runHandler_branchIf_reframe o b p a (f := State.accZero) (fun _ => rfl) s)
  | halt a => cases h; exact congrArg _ (runHandler_reframe o b p (h := fun t => .halted t.signalHalt) (fun _ => rfl) s)

/-- Two runs of one step: from a state that differs only in what no step reads, the same next state but for the difference. -/
theorem step_reframe {s t : State} (h : step s = .next t) : step (s.reframe o b p) = .next (t.reframe o b p) := by
  obtain ⟨hv, ⟨ht, rfl⟩ | ⟨ht, hp, rfl⟩ | ⟨ht, hp, e, hd, rfl⟩ | ⟨ht, i, hi, hx⟩⟩ := step_cases h
  · exact step_of_terminal (s := t.reframe o b p) hv ht
  · exact step_of_fetch_outside (s := s.reframe o b p) hv ht hp
  · rw [State.start_advance s ht]
    exact step_of_decode_error (s := s.reframe o b p) hv ht hp rfl hd
  · rw [← exec_reframe o b p hx]
    obtain ⟨hp, hd⟩ := (nextInstr_eq_some s i).1 hi
    exact step_of_decode_ok (s := s.reframe o b p) hv ht hp rfl hd

end

/-! ### What a step leaves of the host's side -/

/-- Only the host writes the stop request and the run's phase. -/
theorem step_hostSide_eq {s t : State} (h : step s = .next t) :
    t.stopRequest = s.stopRequest ∧ t.runPhase = s.runPhase := by
  rcases step_engineMove_or_completes h with ⟨pc, rs, c, x, inp, rfl, -⟩ | ⟨i, u, -, hu, rfl⟩
  · exact ⟨rfl, rfl⟩
  · rw [State.count_stopRequest, State.count_runPhase]
    exact hu.writes.hostSide

theorem step_stopRequest {s t : State} (h : step s = .next t) : t.stopRequest = s.stopRequest := (step_hostSide_eq h).1

theorem step_runPhase {s t : State} (h : step s = .next t) : t.runPhase = s.runPhase := (step_hostSide_eq h).2

/-- Settles O38: the two-run lemma with nothing more in front of the output. -/
theorem stopRequestDoesNotAffectStep : Obligations.StopRequestDoesNotAffectStep :=
  fun _ _ b p h => ⟨step_stopRequest h, step_runPhase h, step_reframe [] b p h⟩

/-- Settles O39: the two-run lemma with the stop request and the run's phase as they are, which the step leaves. -/
theorem earlierOutputDoesNotAffectStep : Obligations.EarlierOutputDoesNotAffectStep := by
  intro s t o h
  have ht : t.reframe o s.stopRequest s.runPhase = { t with output := o ++ t.output } := by
    rw [← step_stopRequest h, ← step_runPhase h]
    rfl
  exact (step_reframe o s.stopRequest s.runPhase h).trans (congrArg _ ht)

end Sys2Proof.Machine
end

section
/-! SUPPORT. What the two roundings of DIVIDE are (00_scope.md R6; 43_arithmetic.md R94): the floored quotient by the Galois connection that
says which integers it bounds, and the truncated one by its distance from the floored. -/

namespace Sys2Proof.Machine

theorem le_quotient_floor_iff_of_pos {a b q : Int} (hb : 0 < b) : q ≤ quotient .floor a b ↔ q * b ≤ a := by
  change q ≤ Int.fdiv a b ↔ _
  rw [Int.fdiv_eq_ediv_of_nonneg a hb.le, Int.le_ediv_iff_mul_le hb]

/-- A negative divisor turns the inequality: negating both sides of the division does not change the quotient. -/
theorem le_quotient_floor_iff_of_neg {a b q : Int} (hb : b < 0) : q ≤ quotient .floor a b ↔ a ≤ q * b := by
  calc q ≤ quotient .floor a b
      ↔ q ≤ quotient .floor (-a) (-b) := by rw [quotient, quotient, fdiv, fdiv, Int.neg_fdiv_neg]
    _ ↔ q * -b ≤ -a := le_quotient_floor_iff_of_pos (Int.neg_pos_of_neg hb)
    _ ↔ a ≤ q * b := by rw [Int.mul_neg, Int.neg_le_neg_iff]

/-- The truncated quotient is one above the floored exactly when the division leaves a remainder and the signs differ. -/
theorem quotient_trunc_eq_floor_iff {a b : Int} (hb : b ≠ 0) :
    quotient .trunc a b = quotient .floor a b ↔ b ∣ a ∨ a.sign = b.sign ∨ a = 0 := by
  change tdiv a b = Int.fdiv a b ↔ _
  rw [tdiv_eq_intTdiv, Int.tdiv_eq_fdiv, add_eq_left]
  by_cases hdvd : b ∣ a
  · simp [hdvd]
  have ha : a ≠ 0 := fun h => hdvd (h ▸ Int.dvd_zero b)
  rcases lt_or_gt_of_ne ha with ha | ha <;> rcases lt_or_gt_of_ne hb with hb | hb
  · simp [hdvd, Int.sign_eq_neg_one_of_neg, ha, hb, ha.not_ge, hb.not_ge]
  · simp [hdvd, Int.sign_eq_neg_one_of_neg, Int.sign_eq_one_of_pos, ha, hb, ha.ne, ha.not_ge, hb.le]
  · simp [hdvd, Int.sign_eq_neg_one_of_neg, Int.sign_eq_one_of_pos, ha, hb, ha.ne', ha.le, hb.not_ge]
  · simp [hdvd, Int.sign_eq_one_of_pos, ha, hb, ha.le, hb.le]

/-- No rounding moves away from zero by more than the dividend's magnitude. -/
theorem natAbs_quotient_le (d : DivMode) (a b : Int) : (quotient d a b).natAbs ≤ a.natAbs := by
  rw [quotient_eq]
  split_ifs
  · exact Int.natAbs_tdiv_le_natAbs a b
  · exact Int.natAbs_fdiv_le_natAbs a b

/-- Settles O28: the floored quotient is below itself, and so on its side of the dividend; the rest is one lemma a clause. -/
theorem divisionRounding : Obligations.DivisionRounding := by
  refine fun a b hb => ⟨rfl, fun hpos => ⟨?_, fun q => ?_⟩, fun hneg => ⟨?_, fun q => ?_⟩,
    quotient_trunc_eq_floor_iff hb, natAbs_quotient_le .trunc a b, natAbs_quotient_le .floor a b⟩
  · exact (le_quotient_floor_iff_of_pos hpos).1 le_rfl
  · exact (le_quotient_floor_iff_of_pos hpos).2
  · exact (le_quotient_floor_iff_of_neg hneg).1 le_rfl
  · exact (le_quotient_floor_iff_of_neg hneg).2

end Sys2Proof.Machine
end

section
/-! SUPPORT. Memory as what it reads (20_memory.md §1, §4): the canonical list is determined by its words, and a written word is what the
next fetch from its address reads. -/

namespace Sys2Proof.Machine

/-! ### Canonical memories are equal if they read alike -/

theorem Memory.wf_cons {p : Nat × Int} {m : Memory} :
    Memory.wf (p :: m) ↔ (∀ q ∈ m, p.1 < q.1) ∧ p.2 ≠ 0 ∧ Memory.wf m := by
  rw [Memory.wf, Memory.wf, List.pairwise_cons, List.forall_mem_cons]
  tauto

/-- A canonical memory reads zero below its first listed address. -/
theorem Memory.read_eq_zero_of_lt {m : Memory} {a : Nat} (h : ∀ q ∈ m, a < q.1) : m.read a = 0 :=
  read_eq_zero_of_not_listed m a fun q hq => (h q hq).ne'

theorem Memory.read_cons_below {p : Nat × Int} {m : Memory} {a : Nat} (hm : Memory.wf (p :: m)) (ha : a < p.1) :
    Memory.read (p :: m) a = 0 := by
  obtain ⟨hlt, -, -⟩ := wf_cons.1 hm
  exact read_eq_zero_of_lt (List.forall_mem_cons.2 ⟨ha, fun q hq => ha.trans (hlt q hq)⟩)

theorem Memory.read_cons_head (p : Nat × Int) (m : Memory) : Memory.read (p :: m) p.1 = p.2 := if_pos rfl

/-- The first address of a canonical memory is at most that of another which reads alike: its word is not zero. -/
theorem Memory.head_le_of_read_eq {p q : Nat × Int} {m n : Memory} (hm : Memory.wf (p :: m)) (hn : Memory.wf (q :: n))
    (h : ∀ a, Memory.read (p :: m) a = Memory.read (q :: n) a) : p.1 ≤ q.1 := by
  obtain ⟨-, hq, -⟩ := wf_cons.1 hn
  by_contra hlt
  have hzero : Memory.read (p :: m) q.1 = 0 := read_cons_below hm (by omega)
  rw [h, read_cons_head] at hzero
  exact hq hzero

/-- Behind a common first entry, memories that read alike have tails that read alike. -/
theorem Memory.tail_read_eq {p : Nat × Int} {m n : Memory} (hm : Memory.wf (p :: m)) (hn : Memory.wf (p :: n))
    (h : ∀ a, Memory.read (p :: m) a = Memory.read (p :: n) a) (a : Nat) : m.read a = n.read a := by
  obtain ⟨hlt, -, -⟩ := wf_cons.1 hm
  obtain ⟨hlt', -, -⟩ := wf_cons.1 hn
  by_cases ha : p.1 = a
  · rw [← ha, read_eq_zero_of_lt hlt, read_eq_zero_of_lt hlt']
  · simpa only [read_cons, if_neg ha] using h a

/-- A canonical list with an entry does not read like the empty one: the entry's word is not zero. -/
theorem Memory.cons_not_read_zero {p : Nat × Int} {m : Memory} (hm : Memory.wf (p :: m)) :
    ¬ ∀ a, Memory.read (p :: m) a = 0 := by
  obtain ⟨-, hp, -⟩ := wf_cons.1 hm
  exact fun h => hp ((read_cons_head p m).symm.trans (h p.1))

/-- Settles O31: induction on both lists, the first entries being equal because neither address can be below the other. -/
theorem canonicalMemoriesAreEqualIfReadAlike : Obligations.CanonicalMemoriesAreEqualIfReadAlike := by
  intro m
  induction m with
  | nil =>
    intro n _ hn h
    cases n with
    | nil => rfl
    | cons q n => exact absurd (fun a => (h a).symm) (Memory.cons_not_read_zero hn)
  | cons p m ih =>
    intro n hm hn h
    cases n with
    | nil => exact absurd h (Memory.cons_not_read_zero hm)
    | cons q n =>
      have haddr : p.1 = q.1 := le_antisymm (Memory.head_le_of_read_eq hm hn h)
        (Memory.head_le_of_read_eq hn hm fun a => (h a).symm)
      have hword : p.2 = q.2 := by
        rw [← Memory.read_cons_head p m, h, haddr, Memory.read_cons_head]
      obtain rfl : p = q := Prod.ext haddr hword
      obtain ⟨-, -, hm'⟩ := Memory.wf_cons.1 hm
      obtain ⟨-, -, hn'⟩ := Memory.wf_cons.1 hn
      rw [ih n hm' hn' (Memory.tail_read_eq hm hn h)]

/-! ### A written word is what the next fetch reads (20_memory.md R42) -/

theorem State.counted_cfg (u : State) : u.counted.cfg = u.cfg := by
  rcases u.counted_cases with ⟨-, e⟩ | ⟨-, e⟩ <;> rw [e]

theorem State.counted_mem (u : State) : u.counted.mem = u.mem := by
  rcases u.counted_cases with ⟨-, e⟩ | ⟨-, e⟩ <;> rw [e]

/-- Once the count has left memory alone, a fetch from the address just written gives the word. -/
theorem fetch_of_counted_write {u : State} {m : Memory} {a : Nat} {v : Int} (hm : Memory.wf m) (hmem : u.mem = m.write a v)
    (ha : a < u.cfg.memWords) : fetch { u.counted with pc := a } = .ok v := by
  have hp : a < u.counted.cfg.memWords := by rwa [State.counted_cfg]
  rw [fetch_inside (s := { u.counted with pc := a }) hp]
  change Except.ok (u.counted.mem.read a) = _
  rw [State.counted_mem, hmem, Memory.read_write_same _ _ _ hm]

theorem hostWrite_int_inside {s : State} {a : Nat} {v : Int} (ha : a < s.cfg.memWords) (hv : s.cfg.InWord v) :
    hostWrite a (.int v) s = (.ok, s.setWord a v) := by
  rw [hostWrite_of_gives ⟨Int.natCast_nonneg a, Int.ofNat_lt.2 ha⟩ (.inl rfl), hostWriteInt, if_pos hv, Int.toNat_natCast]

/-- Settles O40: each of the three leaves the memory written at `a`, the two instructions under the count besides. -/
theorem writtenWordSeenByNextFetch : Obligations.WrittenWordSeenByNextFetch := by
  intro s a ht hs hm ha
  obtain ⟨-, hstore⟩ := storeInstruction
  obtain ⟨-, -, hread⟩ := readInstruction
  refine ⟨fun hv => ?_, fun v rest hin hv => ?_, fun v hv hr => ?_⟩
  · obtain ⟨hinside, -⟩ := hstore s a ht
    obtain ⟨hx, -⟩ := hinside ha hv hs hm
    exact ⟨_, hx, fetch_of_counted_write hm rfl ha⟩
  · obtain ⟨hinside, -⟩ := hread s a v rest ht hin
    obtain ⟨hx, -⟩ := hinside ha hv hs hm
    exact ⟨_, hx, fetch_of_counted_write hm rfl ha⟩
  · refine ⟨s.setWord a v, ?_, fetch_of_written ha hm⟩
    rw [react_hostWrite hr, hostWrite_int_inside ha hv]

end Sys2Proof.Machine
end

section
/-! SUPPORT. The host's commands between and during runs (60_exceptions.md R113 to R118): one lemma per branch of `issueStep` and of a pass
of the run's loop, from which the statements about single_step, run, the stop request and the terminal states are put together. -/

namespace Sys2Proof.Machine

/-! ### Issuing a step -/

section
variable {s t : State}

theorem issueStep_of_waiting (ht : s.terminal = false) (hw : s.waiting = true) (p : RunPhase) (f : State → RunPhase) :
    issueStep p f s = .next (.waiting, { s with runPhase := p }) := by
  simp [issueStep, State.stepEnabled_eq ht, hw]

theorem issueStep_of_step (ht : s.terminal = false) (hw : s.waiting = false) (h : step s = .next t) (p : RunPhase)
    (f : State → RunPhase) : issueStep p f s = .next (.stepped (stepOutcome t), { t with runPhase := f t }) := by
  simp [issueStep, State.stepEnabled_eq ht, hw, h]

/-! ### One pass of the run's loop (R113) -/

theorem proceedRun_of_terminal (hr : s.runPhase ≠ .idle) (ht : s.terminal = true) :
    proceedRun s = .next (.stopped s.rs s.cause, { s with runPhase := .idle }) := by
  rw [proceedRun, if_neg hr, if_pos ht]

theorem proceedRun_of_stopRequest (hr : s.runPhase = .loopTop) (ht : s.terminal = false) (hq : s.stopRequest = true) :
    proceedRun s = .next (.paused, { s with runPhase := .idle, stopRequest := false }) := by
  simp [proceedRun, hr, ht, hq]

/-- Past the stop check: the run already waits at its step, or no stop request is raised. -/
theorem proceedRun_past_stop (hr : s.runPhase ≠ .idle) (ht : s.terminal = false)
    (hq : s.runPhase = .committed ∨ s.stopRequest = false) :
    proceedRun s = issueStep .committed phaseAfterStep s := by
  have hgo : ¬ (decide (s.runPhase = .loopTop) && s.stopRequest) = true := by
    rcases hq with h | h <;> simp [h]
  rw [proceedRun, if_neg hr, if_neg (by simp [ht]), if_neg hgo]

theorem proceedRun_of_waiting (hr : s.runPhase ≠ .idle) (ht : s.terminal = false)
    (hq : s.runPhase = .committed ∨ s.stopRequest = false) (hw : s.waiting = true) :
    proceedRun s = .next (.waiting, { s with runPhase := .committed }) := by
  rw [proceedRun_past_stop hr ht hq, issueStep_of_waiting ht hw]

theorem proceedRun_of_step (hr : s.runPhase ≠ .idle) (ht : s.terminal = false)
    (hq : s.runPhase = .committed ∨ s.stopRequest = false) (hw : s.waiting = false) (h : step s = .next t) :
    proceedRun s = .next (.stepped (stepOutcome t), { t with runPhase := phaseAfterStep t }) := by
  rw [proceedRun_past_stop hr ht hq, issueStep_of_step ht hw h]

/-! ### Commands with no run active -/

theorem react_singleStep_of_idle (hr : s.runPhase = .idle) : react .singleStep s = singleStep s := by
  simp [react, State.runActive, hr]

theorem react_run_of_idle (hr : s.runPhase = .idle) (resume : Bool) :
    react (.run resume) s = .next (.done, beginRun resume s) := by
  simp [react, State.runActive, hr]

end

/-- Writing the phase that a state has changes nothing. -/
theorem State.with_runPhase_self {s : State} {p : RunPhase} (h : s.runPhase = p) : { s with runPhase := p } = s := by
  rw [← h]

/-- Settles O51: the step of an enabled core, with the run's phase written back as it was, which the step leaves. -/
theorem singleStepIsOneStep : Obligations.SingleStepIsOneStep := by
  intro s t hr ht hw h
  have hrt : t.runPhase = .idle := (step_runPhase h).trans hr
  rw [react_singleStep_of_idle hr, singleStep, if_neg (by simp [ht]), issueStep_of_step ht hw h,
    State.with_runPhase_self hrt]

/-- Settles O53: the branches of a pass of the loop, after the two commands that do not step. -/
theorem runLoopPassAndStatus : Obligations.RunLoopPassAndStatus := by
  refine ⟨fun s => ⟨statusView s, rfl, rfl, rfl, rfl, s.halted_eq_true, rfl, rfl, rfl⟩,
    fun s hr => ⟨react_run_of_idle hr true, react_run_of_idle hr false⟩,
    fun s hr => ⟨proceedRun_of_terminal hr, fun ht hq => ⟨proceedRun_of_waiting hr ht hq, fun t => proceedRun_of_step hr ht hq⟩⟩⟩

/-! ### The stop request (R116) -/

/-- A core to which an input has been supplied does not wait (41_io.md R85). -/
theorem State.not_waiting_of_input {s : State} (h : s.input ≠ []) : s.waiting = false := by
  rw [Bool.eq_false_iff, ne_eq, State.waiting_iff]
  exact fun hw => h hw.2

/-- A run that waits at its step, and now has its input, takes that step although a stop request is raised; the step keeps the request,
which the next pass finds at the loop's top. -/
theorem proceedRun_pauses_after_step {s : State} (hv : s.cfg.Valid) (hr : s.runPhase = .committed) (ht : s.terminal = false)
    (hq : s.stopRequest = true) (hin : s.input ≠ []) :
    ∃ t u, step s = .next t ∧ proceedRun s = .next (.stepped (stepOutcome t), u) ∧
      u = { t with runPhase := phaseAfterStep t } ∧
      (t.terminal = false → proceedRun u = .next (.paused, { t with runPhase := .idle, stopRequest := false })) := by
  obtain ⟨t, h⟩ := stepAlwaysAnswersNextState s hv
  have hstop : t.stopRequest = true := (step_stopRequest h).trans hq
  have hpass := proceedRun_of_step (by simp [hr]) ht (.inl hr) (State.not_waiting_of_input hin) h
  refine ⟨t, _, h, hpass, rfl, fun htt => ?_⟩
  have htop : phaseAfterStep t = .loopTop := if_neg (by simp [htt])
  exact proceedRun_of_stopRequest (s := { t with runPhase := phaseAfterStep t }) htop htt hstop

/-- Settles O50: the request is looked at in one place, the loop's top; at a READ's wait it meets `proceedRun_pauses_after_step`. -/
theorem stopRequestPausesBetweenSteps : Obligations.StopRequestPausesBetweenSteps := by
  refine ⟨fun s => rfl, fun s v => rfl, fun s => proceedRun_of_stopRequest, fun s v hv hr ht _ => ?_⟩
  obtain ⟨t, u, h, hpass, hu, hpause⟩ := proceedRun_pauses_after_step
    (s := { s with stopRequest := true, input := s.input ++ [v] }) hv hr ht rfl (by simp)
  exact ⟨_, _, t, u, rfl, rfl, rfl, rfl, h, hpass, hu, fun htt => ⟨_, hpause htt, rfl⟩⟩

/-! ### Terminal states (R115) -/

/-- The command `run(true)` in a terminal state enters its loop and leaves it in the first pass. -/
theorem runCommand_true_of_terminal {s : State} (hr : s.runPhase = .idle) (ht : s.terminal = true) :
    runCommand true s = .next (.stopped s.rs s.cause, s) := by
  have hpass : proceedRun (beginRun true s) = .next (.stopped s.rs s.cause, s) :=
    (proceedRun_of_terminal (s := beginRun true s) nofun ht).trans
      (congrArg (fun u => Host.Outcome.next (Reply.stopped s.rs s.cause, u)) (State.with_runPhase_self hr))
  simp [runCommand, runLoop, hpass]

/-- Settles O13: every command looks at `RS` first and finds no step to take. -/
theorem terminalStatesStayUntilBoot : Obligations.TerminalStatesStayUntilBoot := by
  refine fun s hv ht => ⟨State.stepEnabled_eq_false ht, step_of_terminal hv ht,
    fun hr => ⟨?_, runCommand_true_of_terminal hr ht, s.boot_rs, rfl⟩⟩
  rw [react_singleStep_of_idle hr, singleStep, if_pos ht]

/-! ### The memory port (20_memory.md R48) -/

theorem atPort_of_active {s : State} (h : s.runPhase ≠ .idle) (r : PortReply × State) :
    atPort r s = .refused .brokenHostDuty := by
  simp [atPort, State.runActive, h]

/-- Every operation of the port stands behind the same guard and changes at most memory. -/
theorem react_eq_atPort {e : Event} {s : State}
    (he : (∃ a, e = .hostRead a) ∨ (∃ a v, e = .hostWrite a v) ∨ e = .hostClear ∨ ∃ items, e = .hostLoad items) :
    ∃ (p : PortReply) (m : Memory), react e s = atPort (p, { s with mem := m }) s := by
  rcases he with ⟨a, rfl⟩ | ⟨a, v, rfl⟩ | rfl | ⟨items, rfl⟩
  · exact ⟨_, s.mem, rfl⟩
  · rcases hostWrite_state_cases a v s with h | ⟨w, -, -, h⟩
    · exact ⟨(hostWrite a v s).1, s.mem, congrArg (fun u => atPort ((hostWrite a v s).1, u) s) h⟩
    · exact ⟨_, s.mem.write a.toNat w, congrArg (fun r => atPort r s) h⟩
  · exact ⟨_, [], rfl⟩
  · obtain ⟨m, hm⟩ := hostLoad_state items s
    exact ⟨(hostLoad items s).1, m, congrArg (fun u => atPort ((hostLoad items s).1, u) s) hm⟩

/-- Settles O49: the guard refuses during a run and lets the answer through between runs. -/
theorem memoryPortOnlyBetweenRuns : Obligations.MemoryPortOnlyBetweenRuns := by
  intro s e he
  obtain ⟨p, m, h⟩ := react_eq_atPort (s := s) he
  rw [h]
  exact ⟨fun hr => atPort_of_active hr _, fun hr => ⟨p, m, atPort_of_idle hr _⟩⟩

end Sys2Proof.Machine
end

section
/-! SUPPORT. The end of a run (60_exceptions.md §7, R123): every completed step takes one off the budget, and a core with an input value
for each step left never waits, so that `SR` steps, or `MAX_STEPS` passes of the run's loop, end in a terminal state. -/

namespace Sys2Proof.Machine

/-! ### Final states -/

/-- By R30 item 2 a terminal state is one of the two good ends of a run. -/
theorem Inv.succeeded_or_failed {s : State} (h : Inv s) (ht : s.terminal = true) : s.succeeded ∨ s.failed := by
  rcases (State.terminal_eq_true s).1 ht with hr | hr
  · exact .inl ⟨hr, h.cause_iff.2 (by simp [hr])⟩
  · exact .inr ⟨hr, fun hc => h.cause_iff.1 hc hr⟩

/-! ### One step of a supplied core -/

/-- A core that may step, in a good state, with an input value ready for every step its budget has left. -/
structure Supplied (s : State) : Prop where
  inv : Inv s
  active : s.terminal = false
  fed : s.sr ≤ s.input.length

theorem Supplied.budget {s : State} (h : Supplied s) : 1 ≤ s.sr := h.inv.budget h.active

theorem Supplied.not_waiting {s : State} (h : Supplied s) : s.waiting = false := by
  rw [Bool.eq_false_iff, ne_eq, State.waiting_iff]
  rintro ⟨-, hin⟩
  have hlen := h.fed
  rw [hin, List.length_nil] at hlen
  have := h.budget
  omega

/-- A step takes at most one input value. -/
theorem step_input_length {s t : State} (h : step s = .next t) : s.input.length ≤ t.input.length + 1 := by
  obtain ⟨-, e | ⟨a, v, -, e⟩⟩ := channelsMoveOnlyByReadAndWrite s t h
  · rw [e]; omega
  · rw [e, List.length_cons]

/-- A step of a supplied core ends the run or takes one off the budget, and then there is still input for the rest. -/
theorem Supplied.step {s t : State} (h : Supplied s) (ht : step s = .next t) :
    t.terminal = true ∨ (Supplied t ∧ t.sr + 1 = s.sr) := by
  rw [State.terminal_eq_true]
  rcases stepOutcomesLeaveTabulatedState s t h.inv h.active h.not_waiting ht with
    ⟨-, rfl⟩ | ⟨c, -, rfl⟩ | ⟨c, -, x, inp, rfl, -⟩ | ⟨a, -, rfl⟩ | ⟨i, -, hsr, -, ⟨hr, -⟩ | ⟨hr, -⟩⟩
  · exact .inl (.inr rfl)
  · exact .inl (.inr rfl)
  · exact .inl (.inr rfl)
  · exact .inl (.inl rfl)
  · have hfed := h.fed
    have hlen := step_input_length ht
    exact .inr ⟨⟨h.inv.step ht, (State.terminal_eq_false t).2 (.inr hr), by omega⟩, hsr⟩
  · exact .inl (.inr hr)

/-! ### `SR` steps -/

theorem core_run_zero (s : State) : Host.Core.run Sys2Proof.core 0 s = .next s := rfl

theorem core_run_succ {s t : State} (h : step s = .next t) (n : Nat) :
    Host.Core.run Sys2Proof.core (n + 1) s = Host.Core.run Sys2Proof.core n t := by
  have hcore : Sys2Proof.core.step s = .next t := h
  simp only [Host.Core.run, hcore]

/-- In a terminal state further steps of the model leave the state as it is (log 7). -/
theorem core_run_of_terminal {s : State} (hv : s.cfg.Valid) (ht : s.terminal = true) (n : Nat) :
    Host.Core.run Sys2Proof.core n s = .next s := by
  induction n with
  | zero => exact core_run_zero s
  | succ n ih => rw [core_run_succ (step_of_terminal hv ht), ih]

/-- A run of a supplied core for at least its budget ends in a terminal state. -/
theorem Supplied.core_run {n : Nat} {s : State} (h : Supplied s) (hn : s.sr ≤ n) :
    ∃ t, Host.Core.run Sys2Proof.core n s = .next t ∧ Inv t ∧ t.terminal = true := by
  induction n generalizing s with
  | zero => exact absurd h.budget (by omega)
  | succ n ih =>
    obtain ⟨t, ht⟩ := stepAlwaysAnswersNextState s h.inv.valid
    have hI : Inv t := h.inv.step ht
    rw [core_run_succ ht]
    rcases h.step ht with hend | ⟨hgo, hsr⟩
    · exact ⟨t, core_run_of_terminal hI.valid hend n, hI, hend⟩
    · exact ih hgo (by omega)

/-- Settles O41: induction on the number of steps, the budget being below it; a core that is terminal already stays where it is (log 7). -/
theorem budgetBoundsEveryRun : Obligations.BudgetBoundsEveryRun := by
  intro s hI hfed
  cases ht : s.terminal with
  | true => exact ⟨s, core_run_of_terminal hI.valid ht _, hI.succeeded_or_failed ht⟩
  | false =>
    obtain ⟨t, hrun, hIt, hend⟩ := Supplied.core_run ⟨hI, ht, hfed⟩ le_rfl
    exact ⟨t, hrun, hIt.succeeded_or_failed hend⟩

end Sys2Proof.Machine
end

section
/-! SUPPORT. The whole command `run(false)` (60_exceptions.md R113, R123): the passes of its loop over a supplied core. -/

namespace Sys2Proof.Machine

/-! ### The outcome of a step (40_cycle.md R72) -/

theorem stepOutcome_of_active {t : State} (h : t.terminal = false) : stepOutcome t = .continued := by
  rcases (State.terminal_eq_false t).1 h with hr | hr <;> rw [stepOutcome, hr]

theorem stepOutcome_of_succeeded {t : State} (h : t.succeeded) : stepOutcome t = .halted := by
  obtain ⟨hr, -⟩ := h
  rw [stepOutcome, hr]

theorem stepOutcome_of_failed {t : State} (h : t.failed) : stepOutcome t = .failed t.cause := by
  obtain ⟨hr, -⟩ := h
  rw [stepOutcome, hr]

/-! ### The loop -/

theorem runLoop_of_continued {s t : State} (h : proceedRun s = .next (.stepped .continued, t)) (n : Nat) :
    runLoop (n + 1) s = runLoop n t := by
  rw [runLoop, h]

theorem runLoop_of_stepped {s t : State} {o : StepOutcome} (h : proceedRun s = .next (.stepped o, t)) (ho : o ≠ .continued)
    (n : Nat) : runLoop (n + 1) s = .next (.stepped o, t) := by
  rw [runLoop, h]
  cases o with
  | continued => exact absurd rfl ho
  | halted | failed c => rfl

/-- A terminal state in which the invariants hold has an outcome that ends a run. -/
theorem Inv.stepOutcome_ne_continued {t : State} (h : Inv t) (ht : t.terminal = true) : stepOutcome t ≠ .continued := by
  rcases h.succeeded_or_failed ht with hs | hf
  · rw [stepOutcome_of_succeeded hs]; decide
  · rw [stepOutcome_of_failed hf]; nofun

theorem Supplied.with_runPhase {s : State} (h : Supplied s) (p : RunPhase) : Supplied { s with runPhase := p } :=
  ⟨h.inv.frame _ _ _ _ _ _, h.active, h.fed⟩

/-- The loop over a supplied core with no stop request, given a pass for every step of the budget, ends with the outcome of the step
that made the core terminal. -/
theorem Supplied.runLoop {n : Nat} {s : State} (h : Supplied s) (hr : s.runPhase = .loopTop) (hq : s.stopRequest = false)
    (hn : s.sr ≤ n) :
    ∃ t, runLoop n s = .next (.stepped (stepOutcome t), { t with runPhase := .idle }) ∧ Inv t ∧ t.terminal = true := by
  induction n generalizing s with
  | zero => exact absurd h.budget (by omega)
  | succ n ih =>
    obtain ⟨t, ht⟩ := stepAlwaysAnswersNextState s h.inv.valid
    have hI : Inv t := h.inv.step ht
    have hpass := proceedRun_of_step (by simp [hr]) h.active (.inr hq) h.not_waiting ht
    rcases h.step ht with hend | ⟨hgo, hsr⟩
    · rw [phaseAfterStep, if_pos hend] at hpass
      exact ⟨t, runLoop_of_stepped hpass (hI.stepOutcome_ne_continued hend) n, hI, hend⟩
    · rw [stepOutcome_of_active hgo.active, phaseAfterStep, if_neg (by simp [hgo.active])] at hpass
      rw [runLoop_of_continued hpass]
      have hstop : t.stopRequest = false := (step_stopRequest ht).trans hq
      exact ih (hgo.with_runPhase .loopTop) rfl hstop (show t.sr ≤ n by omega)

/-- Settles O42: the boot gives the budget `MAX_STEPS`, which is below the loop's fuel and covered by the input. -/
theorem runCommandReachesFinalState : Obligations.RunCommandReachesFinalState := by
  intro s hI hfed
  have hboot : Supplied (beginRun false s) := ⟨hI.beginRun false, rfl, hfed⟩
  obtain ⟨t, hrun, hIt, hend⟩ := hboot.runLoop rfl rfl (Nat.le_succ s.cfg.maxSteps)
  refine ⟨_, _, hrun, rfl, ?_⟩
  rcases hIt.succeeded_or_failed hend with hs | hf
  · exact .inl ⟨congrArg _ (stepOutcome_of_succeeded hs), hs⟩
  · exact .inr ⟨congrArg _ (stepOutcome_of_failed hf), hf⟩

end Sys2Proof.Machine
end

section
/-! SUPPORT. Power-on as a good state (10_state.md R30, 70_reset_and_hazards.md R126), and the word that the host places where the reset
machine fetches (log 11). -/

namespace Sys2Proof.Machine

theorem Inv.powerOn {c : Config} (hc : c.Valid) : Inv (State.powerOn c) := by
  have ⟨_, _, hmax⟩ := hc
  exact ⟨hc, State.halted_eq_true _, iff_of_true rfl nofun, fun _ => hmax, fun _ => c.inWord_zero, by simp,
    Nat.zero_le _, Memory.wf_nil⟩

theorem Config.reference_valid : Config.reference.Valid := by decide

/-- Settles O30: item by item, over an empty memory list and boot's budget `MAX_STEPS >= 1`. -/
theorem powerOnMeetsInvariants : Obligations.PowerOnMeetsInvariants :=
  ⟨fun _ hc => Inv.powerOn hc, Inv.powerOn Config.reference_valid⟩

/-! ### The placed word -/

theorem decodeTableWord_eq_some {nbits w : Nat} {i : Instr} (h : decodeTableWord nbits w = some i) :
    decode Config.reference ((w % 2 ^ nbits : Nat) : Int) = .ok i := by
  unfold decodeTableWord at h
  cases hd : decode Config.reference ((w % 2 ^ nbits : Nat) : Int) with
  | error e => rw [hd] at h; cases h
  | ok j => rw [hd] at h; cases h; rfl

/-- On a core that can fetch, placing a word that memory can hold stores it at `PC`, and gives input to a READ that would wait. -/
theorem State.placeWord_of_fetches {s : State} {nbits w : Nat} (ht : s.terminal = false) (hp : s.pc < s.cfg.memWords)
    (hw : s.cfg.InWord ((w % 2 ^ nbits : Nat) : Int)) :
    ∃ inp, s.placeWord nbits w = { s.setWord s.pc ((w % 2 ^ nbits : Nat) : Int) with input := inp } ∧
      (s.placeWord nbits w).waiting = false := by
  have hb : ¬ (s.terminal || decide (s.cfg.memWords ≤ s.pc)) = true := by simp [ht, hp]
  unfold State.placeWord
  simp only [if_neg hb, if_pos hw]
  split_ifs with hwait
  · exact ⟨[0], rfl, State.not_waiting_of_input (by simp)⟩
  · exact ⟨_, rfl, by simpa using hwait⟩

/-- Settles O52: the placed word stands where the reset machine fetches and decodes to `i`; the input the placing gives changes neither. -/
theorem placedWordRunsFirst : Obligations.PlacedWordRunsFirst := by
  intro nbits w i h
  have hd := decodeTableWord_eq_some h
  have hp : State.reset.pc < State.reset.cfg.memWords := by decide
  obtain ⟨-, -, hw⟩ := encodeOfDecodeIsIdentity Config.reference _ i Config.reference_valid hd
  obtain ⟨inp, hplaced, hwait⟩ := State.placeWord_of_fetches (s := State.reset) rfl hp hw
  refine ⟨?_, hwait⟩
  rw [State.withFetchWord, hplaced]
  exact step_of_decode_ok Config.reference_valid rfl hp (Memory.read_write_same _ _ _ reset_mem_wf).symm hd

end Sys2Proof.Machine
end
